-- ==== Sys2Proof/Word.lean ====
section
/-! DEFINITION. The word types of the machine (00_scope.md R10, R12; 10_state.md R20). -/

namespace Sys2Proof

/-- One byte of memory or of an instruction. -/
abbrev Byte := BitVec 8

/-- A word, one lane of a packed operand (R14). -/
abbrev Word := BitVec 16

/-- A 64-bit general register, address or RIP value (R26, R27). -/
abbrev Addr := BitVec 64

/-- A vector register ZMMn, 512 bits (R21); shorter operands are its low bits. -/
abbrev Vec := BitVec 512

/-- A mask register's value: the number its bits write, bit j being `testBit j`. Its width, MAX_KL, is a parameter of
the part (`Config.maxKl`, R8), so a value of the register is a number below 2^MAX_KL (R23; log entry 30). -/
abbrev MaskVal := Nat

end Sys2Proof
end

