-- ==== Sys2Proof/Config.lean ====
section
/-! DEFINITION. What an implementation fixes (00_scope.md R9, 10_state.md R33) and the free values of the model.
The configuration is data of the state that no step changes, so that a claim holds for all its values or names
the one it needs (D3, D21, D25). -/

namespace Sys2Proof

/-- `cfg.va_bits`: the number of implemented linear-address bits (R61, D21). -/
inductive VaBits where
  /-- 48 bits -/
  | bits48
  /-- 57 bits -/
  | bits57
  deriving DecidableEq, Repr

/-- The number a `VaBits` stands for. -/
def VaBits.toNat : VaBits → Nat
  | .bits48 => 48
  | .bits57 => 57

/-- The constants of the part (R9). -/
structure Config where
  /-- CPUID leaf 7, subleaf 0, register EBX: the feature flags (R33) -/
  cpuid7Ebx : BitVec 32
  /-- `cfg.va_bits` (R61) -/
  vaBits : VaBits
  /-- `cfg.fault_suppression` (R60, D25) -/
  faultSuppression : Bool
  /-- `cfg.max_kl`, MAX_KL: the width of a mask register (R8, D2, U2) -/
  maxKl : Nat
  /-- the constraint R8 puts on it -/
  maxKl_ge : 32 ≤ maxKl
  deriving DecidableEq, Repr

/-- FREE VALUE (R58, R65, R66, U5; log entry 12): the byte that write number n + 1 of another agent to the address
stores, in that location's order of writes. Nothing constrains it. -/
opaque Config.writtenByte : (la : Addr) → (n : Nat) → Byte

/-- FREE VALUE (R58, R65; log entry 12): how many further writes to the address have become visible when read number
`draw` reads its byte. Nothing constrains it. -/
opaque Config.newWrites : (draw : Nat) → (la : Addr) → Nat

/-- FREE VALUE (R196, U6; log entry 11): the draw that picks which of the operand's bytes that are not admitted
gives the address recorded in CR2. Nothing constrains it. -/
opaque Config.faultDraw : (draw : Nat) → Nat

end Sys2Proof
end

