-- ==== Sys2Proof/Syntax.lean ====
section
/-! DEFINITION. The instructions as syntax: operand forms (30_encoding.md R94 to R113) and the six forms of
`opcode_table.json` (R116), one constructor each. Field values are logical (un-inverted) ones (R88). -/

namespace Sys2Proof

/-- How the words of a lane are read: VPCMPW signed, VPCMPUW unsigned (R130, R133). -/
inductive Signedness where
  | signed
  | unsigned
  deriving DecidableEq, Repr

/-- The vector length of a form (R7, R92). -/
inductive VecLen where
  | v128
  | v256
  | v512
  deriving DecidableEq, Repr

/-- The eight comparisons of the predicate table (R131, R132). -/
inductive Predicate where
  /-- 0, EQ -/
  | eq
  /-- 1, LT -/
  | lt
  /-- 2, LE -/
  | le
  /-- 3, FALSE -/
  | never
  /-- 4, NEQ -/
  | neq
  /-- 5, NLT -/
  | nlt
  /-- 6, NLE -/
  | nle
  /-- 7, TRUE -/
  | always
  deriving DecidableEq, Repr

/-- The segment-override prefixes (R110): 26h, 2Eh, 36h, 3Eh without effect, 64h and 65h with one. -/
inductive SegPrefix where
  | es
  | cs
  | ss
  | ds
  | fs
  | gs
  deriving DecidableEq, Repr

/-- The legacy prefixes the model admits before 62h (R110, R111, D19). -/
structure Prefixes where
  /-- the one segment override, if any -/
  seg : Option SegPrefix
  /-- the address-size prefix 67h is present -/
  addr32 : Bool
  deriving DecidableEq, Repr

/-- The displacement of a memory operand with a base register (R101, R106). -/
inductive Disp where
  /-- mod = 00b -/
  | zero
  /-- mod = 01b: one byte, scaled by VL/8 when used (R107) -/
  | disp8 (d : BitVec 8)
  /-- mod = 10b: four bytes, never scaled (R102) -/
  | disp32 (d : BitVec 32)
  deriving DecidableEq, Repr

/-- The memory operand forms (R101, R103 to R106). General registers are named by their four-bit number. -/
inductive MemOperand where
  /-- no SIB byte: base register and displacement (R101) -/
  | base (b : BitVec 4) (d : Disp)
  /-- no SIB byte, mod = 00b, rm = 101b: RIP-relative (R103) -/
  | ripRel (d : BitVec 32)
  /-- SIB byte with a base register; index number 4 means no index (R104 to R106) -/
  | sib (b : BitVec 4) (scale : BitVec 2) (index : BitVec 4) (d : Disp)
  /-- SIB byte, mod = 00b, SIB.base = 101b: no base, disp32 (R106) -/
  | sibNoBase (scale : BitVec 2) (index : BitVec 4) (d : BitVec 32)
  deriving DecidableEq, Repr

/-- The second source operand (R98, R153): a vector register or a memory operand. -/
inductive Source2 where
  | reg (n : BitVec 5)
  | mem (m : MemOperand)
  deriving DecidableEq, Repr

/-- The four encoding bits that lie outside the opcode table's mask and must be 0 as logical values, else #UD
(R95, R114, R115, R117, R118). -/
structure FixedBits where
  /-- logical EVEX.R -/
  r : Bool
  /-- logical EVEX.R' -/
  rHi : Bool
  /-- EVEX.z -/
  z : Bool
  /-- EVEX.b -/
  b : Bool
  deriving DecidableEq, Repr

/-- The operand fields every form has (R94 to R113). -/
structure Operands where
  pre : Prefixes
  fixed : FixedBits
  /-- DEST, the mask register written: ModRM.reg (R95) -/
  dest : BitVec 3
  /-- MASK, the field aaa: 0 is no writemask (R96) -/
  mask : BitVec 3
  /-- SRC1 = V' ++ vvvv (R97) -/
  src1 : BitVec 5
  /-- SRC2 (R98) -/
  src2 : Source2
  /-- IMM8 (R113) -/
  imm8 : BitVec 8
  deriving DecidableEq, Repr

/-- The instructions: one constructor per row of `opcode_table.json` (R116). -/
inductive Instr where
  /-- row 1, R150 -/
  | vpcmpw128 (o : Operands)
  /-- row 2, R151 -/
  | vpcmpw256 (o : Operands)
  /-- row 3, R152 -/
  | vpcmpw512 (o : Operands)
  /-- row 4, R160 -/
  | vpcmpuw128 (o : Operands)
  /-- row 5, R161 -/
  | vpcmpuw256 (o : Operands)
  /-- row 6, R162 -/
  | vpcmpuw512 (o : Operands)
  deriving DecidableEq, Repr

/-- The operand fields of an instruction. -/
def Instr.operands : Instr → Operands
  | .vpcmpw128 o => o
  | .vpcmpw256 o => o
  | .vpcmpw512 o => o
  | .vpcmpuw128 o => o
  | .vpcmpuw256 o => o
  | .vpcmpuw512 o => o

/-- The mnemonic's signedness (R130). -/
def Instr.signedness : Instr → Signedness
  | .vpcmpw128 _ => .signed
  | .vpcmpw256 _ => .signed
  | .vpcmpw512 _ => .signed
  | .vpcmpuw128 _ => .unsigned
  | .vpcmpuw256 _ => .unsigned
  | .vpcmpuw512 _ => .unsigned

/-- The form's vector length (R116). -/
def Instr.vecLen : Instr → VecLen
  | .vpcmpw128 _ => .v128
  | .vpcmpw256 _ => .v256
  | .vpcmpw512 _ => .v512
  | .vpcmpuw128 _ => .v128
  | .vpcmpuw256 _ => .v256
  | .vpcmpuw512 _ => .v512

/-- The form with a given signedness and vector length (R116). -/
def Instr.ofForm : Signedness → VecLen → Operands → Instr
  | .signed, .v128, o => .vpcmpw128 o
  | .signed, .v256, o => .vpcmpw256 o
  | .signed, .v512, o => .vpcmpw512 o
  | .unsigned, .v128, o => .vpcmpuw128 o
  | .unsigned, .v256, o => .vpcmpuw256 o
  | .unsigned, .v512, o => .vpcmpuw512 o

/-- Why the bytes at RIP are given no meaning (R118, R120): each is refused by its own name. -/
inductive DecodeRefusal where
  /-- the byte where 62h is expected is another one: not this family (R120 steps 2, 3) -/
  | notEvex
  /-- EVEX map 01b or 10b: other instructions (R89, R118) -/
  | otherMap
  /-- map 11b with an opcode other than 3Eh, 3Fh (R118) -/
  | otherOpcode
  /-- opcode 3Eh or 3Fh with pp other than 01b (R90, R118) -/
  | otherPp
  /-- W = 0: the byte compares VPCMPB, VPCMPUB (R91, R118) -/
  | byteCompare
  /-- more than one segment override or more than one 67h (R110, R111, D19) -/
  | repeatedPrefix
  /-- the code region ends inside the instruction: fetch is not modelled outside it (R71) -/
  | truncated
  deriving DecidableEq, Repr

/-- Why an encoding raises #UD while it is decoded (R118, R120 steps 2, 5, 8). -/
inductive InvalidEncoding where
  /-- LOCK, 66h, F2h, F3h or REX before 62h (R112) -/
  | forbiddenPrefix
  /-- P0[3:2] other than 00b (R85) -/
  | reservedP0
  /-- P1[2] = 0 (R86) -/
  | fixedP1
  /-- mm = 00b (R89) -/
  | reservedMap
  /-- L'L = 11b (R92) -/
  | vectorLength
  deriving DecidableEq, Repr

/-- What decoding answers (R120): an instruction with the bytes after it, an invalid encoding (#UD), an
instruction longer than 15 bytes (#GP(0), R83), or a refusal by name. -/
inductive Decoded where
  | instr (i : Instr) (rest : List Byte)
  | invalid (why : InvalidEncoding)
  | tooLong
  | refused (why : DecodeRefusal)
  deriving DecidableEq, Repr

end Sys2Proof
end

