-- ==== Sys2Proof/WellFormed.lean ====
section
/-! DEFINITION. Which instruction terms are well formed: the operand shapes the encoding can express
(30_encoding.md R101, R106) and the four bits that must be 0 (R95, R114, R115). -/

namespace Sys2Proof

/-- The three-bit low field of a base register number, the field ModRM.rm or SIB.base holds (R101, R106). -/
def baseLow (b : BitVec 4) : BitVec 3 := b.setWidth 3

/-- A base register whose low field is 101b needs a displacement: mod = 00b means something else there
(R101, R106). -/
def Disp.fitsBase (d : Disp) (b : BitVec 4) : Bool :=
  match d with
  | .zero => baseLow b != 5#3
  | .disp8 _ => true
  | .disp32 _ => true

/-- Can the encoding express this memory operand? Without SIB the low field of the base is not 100b (R101). -/
def MemOperand.encodable : MemOperand → Bool
  | .base b d => baseLow b != 4#3 && d.fitsBase b
  | .ripRel _ => true
  | .sib b _ _ d => d.fitsBase b
  | .sibNoBase _ _ _ => true

/-- Can the encoding express this second source? -/
def Source2.encodable : Source2 → Bool
  | .reg _ => true
  | .mem m => m.encodable

/-- The bits that must be 0 are 0 (R95, R114, R115). -/
def FixedBits.legal (f : FixedBits) : Bool :=
  !f.r && !f.rHi && !f.z && !f.b

/-- The instruction has an encoding at all; with a wrong fixed bit it is one that raises #UD (R118). -/
def Instr.encodable (i : Instr) : Bool := i.operands.src2.encodable

/-- A well-formed instruction: it has an encoding and its fixed bits are legal. -/
def Instr.wellFormed (i : Instr) : Bool := i.encodable && i.operands.fixed.legal

end Sys2Proof
end

