-- ==== Sys2Proof/Decode.lean ====
section
/-! DEFINITION. Decoding (30_encoding.md R120), total on any bytes, the encoder (R121), an instruction's length
(R83) and the opcode table's numbering (R117). Everything here is for 64-bit mode (D1). -/

namespace Sys2Proof

/-! ### Bit fields of the encoding bytes -/

/-- The bit field `b[lo+w-1:lo]` of a byte (R10). -/
def field (b : Byte) (lo w : Nat) : BitVec w := b.extractLsb' lo w

/-- The logical value of a bit stored inverted (R88). -/
def inverted (b : Byte) (i : Nat) : Bool := !b.getLsbD i

/-- ModRM.mod (R98). -/
def modrmMod (modrm : Byte) : BitVec 2 := field modrm 6 2

/-- ModRM.reg (R98). -/
def modrmReg (modrm : Byte) : BitVec 3 := field modrm 3 3

/-- ModRM.rm (R98). -/
def modrmRm (modrm : Byte) : BitVec 3 := field modrm 0 3

/-- A byte of ModRM's or SIB's shape: two bits, three bits, three bits (R98, R104). -/
def byte233 (a : BitVec 2) (b c : BitVec 3) : Byte := (a ++ (b ++ c) : BitVec (2 + (3 + 3)))

/-- A three-bit register field with its extension bit in front (R99, R101, R105, R106). -/
def extended (hi : Bool) (lo : BitVec 3) : BitVec 4 := (BitVec.ofBool hi ++ lo : BitVec (1 + 3))

/-! ### Legacy prefixes (R110 to R112) -/

/-- The segment override a prefix byte names (R110). -/
def segOfByte (b : Byte) : Option SegPrefix :=
  if b = 0x26#8 then some .es
  else if b = 0x2E#8 then some .cs
  else if b = 0x36#8 then some .ss
  else if b = 0x3E#8 then some .ds
  else if b = 0x64#8 then some .fs
  else if b = 0x65#8 then some .gs
  else none

/-- The byte of a segment override (R110). -/
def byteOfSeg : SegPrefix → Byte
  | .es => 0x26#8
  | .cs => 0x2E#8
  | .ss => 0x36#8
  | .ds => 0x3E#8
  | .fs => 0x64#8
  | .gs => 0x65#8

/-- What the prefix loop has counted (R120 step 1). -/
structure PrefixScan where
  nSeg : Nat
  nA32 : Nat
  seg : Option SegPrefix
  deriving DecidableEq, Repr

/-- R120 step 1: read segment overrides and 67h until another byte stands. -/
def scanPrefixes (p : PrefixScan) : List Byte → PrefixScan × List Byte
  | [] => (p, [])
  | b :: t =>
    if b = 0x67#8 then scanPrefixes { p with nA32 := p.nA32 + 1 } t
    else
      match segOfByte b with
      | some g => scanPrefixes { p with nSeg := p.nSeg + 1, seg := some g } t
      | none => (p, b :: t)

/-- LOCK, 66h, F2h, F3h and REX, which may not stand before 62h (R112). -/
def forbiddenPrefix (b : Byte) : Bool :=
  b == 0xF0#8 || b == 0x66#8 || b == 0xF2#8 || b == 0xF3#8 || field b 4 4 == 4#4

/-- Any legacy-prefix or REX byte. -/
def anyPrefix (b : Byte) : Bool :=
  forbiddenPrefix b || b == 0x67#8 || (segOfByte b).isSome

/-- R120 step 2: skip every further legacy-prefix or REX byte, counting them. -/
def skipPrefixes (n : Nat) : List Byte → Nat × List Byte
  | [] => (n, [])
  | b :: t => if anyPrefix b then skipPrefixes (n + 1) t else (n, b :: t)

/-! ### Displacements and the second source (R98 to R107) -/

/-- Four bytes, least significant first (R54). -/
def takeDisp32 : List Byte → Option (BitVec 32 × List Byte)
  | b0 :: b1 :: b2 :: b3 :: t => some ((b3 ++ (b2 ++ (b1 ++ b0)) : BitVec (8 + (8 + (8 + 8)))), t)
  | _ => none

/-- The displacement that follows a base register, by ModRM.mod (R101, R106). -/
def takeDisp (mod : BitVec 2) (bs : List Byte) : Option (Disp × List Byte) :=
  if mod = 0#2 then some (.zero, bs)
  else if mod = 1#2 then
    match bs with
    | [] => none
    | d :: t => some (.disp8 d, t)
  else (takeDisp32 bs).map fun (d, t) => (.disp32 d, t)

/-- The second source, with the bytes after SIB and displacement. `x` and `b` are the logical bits X and B. -/
def takeSource2 (x b : Bool) (modrm : Byte) (bs : List Byte) : Option (Source2 × List Byte) :=
  if modrmMod modrm = 3#2 then
    some (.reg (BitVec.ofBool x ++ extended b (modrmRm modrm) : BitVec (1 + 4)), bs)
  else if modrmRm modrm = 4#3 then
    match bs with
    | [] => none
    | sib :: t =>
      if modrmMod modrm = 0#2 ∧ modrmRm sib = 5#3 then
        (takeDisp32 t).map fun (d, u) => (.mem (.sibNoBase (modrmMod sib) (extended x (modrmReg sib)) d), u)
      else
        (takeDisp (modrmMod modrm) t).map fun (d, u) =>
          (.mem (.sib (extended b (modrmRm sib)) (modrmMod sib) (extended x (modrmReg sib)) d), u)
  else if modrmMod modrm = 0#2 ∧ modrmRm modrm = 5#3 then
    (takeDisp32 bs).map fun (d, u) => (.mem (.ripRel d), u)
  else
    (takeDisp (modrmMod modrm) bs).map fun (d, u) => (.mem (.base (extended b (modrmRm modrm)) d), u)

/-! ### The EVEX part (R84 to R93, R120 steps 4 to 15) -/

/-- The vector length field L'L; 11b is reserved (R92). -/
def vecLenOf (ll : BitVec 2) : Option VecLen :=
  if ll = 0#2 then some .v128
  else if ll = 1#2 then some .v256
  else if ll = 2#2 then some .v512
  else none

/-- The opcode byte's mnemonic: 3Fh VPCMPW, 3Eh VPCMPUW (R93). -/
def signednessOf (op : Byte) : Option Signedness :=
  if op = 0x3F#8 then some .signed
  else if op = 0x3E#8 then some .unsigned
  else none

/-- The operand fields outside ModRM.r/m (R87 to R97). -/
def operandsOf (pre : Prefixes) (p0 p1 p2 modrm : Byte) (src2 : Source2) (imm8 : Byte) : Operands where
  pre := pre
  fixed :=
    { r := inverted p0 7, rHi := inverted p0 4, z := p2.getLsbD 7, b := p2.getLsbD 4 }
  dest := modrmReg modrm
  mask := field p2 0 3
  src1 := (BitVec.ofBool (inverted p2 3) ++ ~~~(field p1 3 4) : BitVec (1 + 4))
  src2 := src2
  imm8 := imm8

/-- The bytes after 62h. Steps 5 and 6 sort out the reserved and the other encodings, step 8 the vector length;
the checks of steps 7 and 9 to 11 read the state and are the machine's (Machine/Ops.lean). -/
def decodeEvex (pre : Prefixes) : List Byte → Decoded
  | p0 :: p1 :: p2 :: op :: modrm :: tail =>
    if field p0 2 2 ≠ 0#2 then .invalid .reservedP0
    else if p1.getLsbD 2 = false then .invalid .fixedP1
    else if field p0 0 2 = 0#2 then .invalid .reservedMap
    else if field p0 0 2 ≠ 3#2 then .refused .otherMap
    else
      match signednessOf op with
      | none => .refused .otherOpcode
      | some sg =>
        if field p1 0 2 ≠ 1#2 then .refused .otherPp
        else if p1.getLsbD 7 = false then .refused .byteCompare
        else
          match vecLenOf (field p2 5 2) with
          | none => .invalid .vectorLength
          | some vl =>
            match takeSource2 (inverted p0 6) (inverted p0 5) modrm tail with
            | none => .refused .truncated
            | some (_, []) => .refused .truncated
            | some (src2, imm8 :: rest) =>
              .instr (.ofForm sg vl (operandsOf pre p0 p1 p2 modrm src2 imm8)) rest
  | _ => .refused .truncated

/-! ### Length (R83) -/

/-- Displacement bytes: 0, 1 or 4. -/
def Disp.length : Disp → Nat
  | .zero => 0
  | .disp8 _ => 1
  | .disp32 _ => 4

/-- SIB and displacement bytes of a memory operand (R82). -/
def MemOperand.length : MemOperand → Nat
  | .base _ d => d.length
  | .ripRel _ => 4
  | .sib _ _ _ d => 1 + d.length
  | .sibNoBase _ _ _ => 1 + 4

/-- SIB and displacement bytes of a second source. -/
def Source2.length : Source2 → Nat
  | .reg _ => 0
  | .mem m => m.length

/-- The number of legacy prefix bytes. -/
def Prefixes.length (p : Prefixes) : Nat := p.seg.isSome.toNat + p.addr32.toNat

/-- L, the instruction's length in bytes (R83). -/
def Operands.length (o : Operands) : Nat := o.pre.length + 6 + o.src2.length + 1

/-- L of an instruction. -/
def Instr.length (i : Instr) : Nat := i.operands.length

/-! ### The whole instruction (R120 steps 1 to 3) -/

/-- A forbidden prefix before 62h, with `n` prefix bytes before 62h in all: #UD (R112, R120 step 2), unless what follows
is an instruction of this family and is longer than 15 bytes with them, which is reported first (R83, R203).
DEDUCED, log entry 17: R83 gives the length of this family's instructions only, so the bytes after 62h must be one, whole,
for #GP(0) to be raised; bytes of another instruction, a reserved encoding (P0[3:2] other than 00b, P1[2] = 0, mm = 00b,
L'L = 11b) and bytes that the end of the code cuts off raise #UD, even where their count alone already exceeds 15. -/
def decodeForbidden (n : Nat) (afterEscape : List Byte) : Decoded :=
  match decodeEvex { seg := none, addr32 := false } afterEscape with
  | .instr i _ => if 15 < n + i.length then .tooLong else .invalid .forbiddenPrefix
  | .invalid _ => .invalid .forbiddenPrefix
  | .tooLong => .invalid .forbiddenPrefix
  | .refused _ => .invalid .forbiddenPrefix

/-- Decoding (R120). -/
def decode (bs : List Byte) : Decoded :=
  let (p, rest) := scanPrefixes { nSeg := 0, nA32 := 0, seg := none } bs
  if p.nSeg > 1 ∨ p.nA32 > 1 then .refused .repeatedPrefix
  else
    match rest with
    | [] => .refused .truncated
    | b :: t =>
      if forbiddenPrefix b then
        match skipPrefixes (p.nSeg + p.nA32 + 1) t with
        | (_, []) => .refused .truncated
        | (n, e :: u) => if e = 0x62#8 then decodeForbidden n u else .refused .notEvex
      else if b = 0x62#8 then decodeEvex { seg := p.seg, addr32 := p.nA32 == 1 } t
      else .refused .notEvex

/-! ### Encoding (R121) -/

/-- L'L of a vector length (R92). -/
def VecLen.code : VecLen → BitVec 2
  | .v128 => 0#2
  | .v256 => 1#2
  | .v512 => 2#2

/-- The opcode byte of a mnemonic (R93). -/
def Signedness.opcode : Signedness → Byte
  | .signed => 0x3F#8
  | .unsigned => 0x3E#8

/-- A displacement's bytes, least significant first (R54). -/
def encodeDisp32 (d : BitVec 32) : List Byte :=
  [d.extractLsb' 0 8, d.extractLsb' 8 8, d.extractLsb' 16 8, d.extractLsb' 24 8]

/-- ModRM.mod for a displacement after a base register (R101, R106). -/
def Disp.mod : Disp → BitVec 2
  | .zero => 0#2
  | .disp8 _ => 1#2
  | .disp32 _ => 2#2

/-- A displacement's bytes. -/
def Disp.bytes : Disp → List Byte
  | .zero => []
  | .disp8 d => [d]
  | .disp32 d => encodeDisp32 d

/-- Logical X of the second source: 0 where the form ignores it (R121). -/
def Source2.x : Source2 → Bool
  | .reg n => n.getLsbD 4
  | .mem (.base _ _) => false
  | .mem (.ripRel _) => false
  | .mem (.sib _ _ i _) => i.getLsbD 3
  | .mem (.sibNoBase _ i _) => i.getLsbD 3

/-- Logical B of the second source: 0 where the form ignores it (R121). -/
def Source2.b : Source2 → Bool
  | .reg n => n.getLsbD 3
  | .mem (.base b _) => b.getLsbD 3
  | .mem (.ripRel _) => false
  | .mem (.sib b _ _ _) => b.getLsbD 3
  | .mem (.sibNoBase _ _ _) => false

/-- ModRM.mod of the second source (R99, R101, R106). -/
def Source2.mod : Source2 → BitVec 2
  | .reg _ => 3#2
  | .mem (.base _ d) => d.mod
  | .mem (.ripRel _) => 0#2
  | .mem (.sib _ _ _ d) => d.mod
  | .mem (.sibNoBase _ _ _) => 0#2

/-- ModRM.rm of the second source (R99, R101, R104). -/
def Source2.rm : Source2 → BitVec 3
  | .reg n => n.setWidth 3
  | .mem (.base b _) => b.setWidth 3
  | .mem (.ripRel _) => 5#3
  | .mem (.sib _ _ _ _) => 4#3
  | .mem (.sibNoBase _ _ _) => 4#3

/-- SIB and displacement bytes of the second source (R82). -/
def Source2.bytes : Source2 → List Byte
  | .reg _ => []
  | .mem (.base _ d) => d.bytes
  | .mem (.ripRel d) => encodeDisp32 d
  | .mem (.sib b s i d) => byte233 s (i.setWidth 3) (b.setWidth 3) :: d.bytes
  | .mem (.sibNoBase s i d) => byte233 s (i.setWidth 3) 5#3 :: encodeDisp32 d

/-- The prefix bytes, the segment override first. -/
def Prefixes.bytes (p : Prefixes) : List Byte :=
  (match p.seg with
    | none => []
    | some g => [byteOfSeg g]) ++ (if p.addr32 then [0x67#8] else [])

/-- P0 (R85): R, X, B, R' stored inverted, 00b, mm = 11b. -/
def encodeP0 (o : Operands) : Byte :=
  (BitVec.ofBool (!o.fixed.r) ++ (BitVec.ofBool (!o.src2.x) ++ (BitVec.ofBool (!o.src2.b) ++
    (BitVec.ofBool (!o.fixed.rHi) ++ 3#4))) : BitVec (1 + (1 + (1 + (1 + 4)))))

/-- P1 (R86): W = 1, vvvv stored inverted, 1, pp = 01b. -/
def encodeP1 (o : Operands) : Byte :=
  (1#1 ++ (~~~(o.src1.setWidth 4) ++ 5#3) : BitVec (1 + (4 + 3)))

/-- P2 (R87): z, L'L, b, V' stored inverted, aaa. -/
def encodeP2 (vl : VecLen) (o : Operands) : Byte :=
  (BitVec.ofBool o.fixed.z ++ (vl.code ++ (BitVec.ofBool o.fixed.b ++
    (BitVec.ofBool (!o.src1.getLsbD 4) ++ o.mask))) : BitVec (1 + (2 + (1 + (1 + 3)))))

/-- The bytes of an instruction (R81, R121). -/
def encode (i : Instr) : List Byte :=
  let o := i.operands
  o.pre.bytes ++
    (0x62#8 :: encodeP0 o :: encodeP1 o :: encodeP2 i.vecLen o :: i.signedness.opcode ::
      byte233 o.src2.mod o.dest o.src2.rm :: (o.src2.bytes ++ [o.imm8]))

/-! ### The opcode table's numbering (R117) -/

/-- word48 = 62h ++ P0 ++ P1 ++ P2 ++ opcode ++ ModRM (R117). -/
def word48 (b0 b1 b2 b3 b4 b5 : Byte) : BitVec 48 :=
  (b0 ++ (b1 ++ (b2 ++ (b3 ++ (b4 ++ b5)))) : BitVec (8 + (8 + (8 + (8 + (8 + 8))))))

/-- The mask of every row of the opcode table (R117). -/
def tableMask : BitVec 48 := 0xFF0F8760FF00#48

/-- The match value of an instruction's row (R117). -/
def Instr.tableMatch : Instr → BitVec 48
  | .vpcmpw128 _ => 0x620385003F00#48
  | .vpcmpw256 _ => 0x620385203F00#48
  | .vpcmpw512 _ => 0x620385403F00#48
  | .vpcmpuw128 _ => 0x620385003E00#48
  | .vpcmpuw256 _ => 0x620385203E00#48
  | .vpcmpuw512 _ => 0x620385403E00#48

/-- The bytes a table word of `nbits` bits stands for, in increasing address order, with zeros up to the 15 bytes
an instruction may have. R117 numbers the byte at offset 0 most significant; a word whose most significant byte
is not 62h is read with its first byte least significant (log entry 19). -/
def tableBytes (nbits w : Nat) : List Byte :=
  let n := nbits / 8
  let high := (List.range n).map fun i => BitVec.ofNat 8 (w >>> (8 * (n - 1 - i)))
  let low := (List.range n).map fun i => BitVec.ofNat 8 (w >>> (8 * i))
  (if high.head? = some 0x62#8 then high else low) ++ List.replicate (15 - n) 0#8

/-- The instruction the decoder reads from a table word (R117). -/
def decodeTableWord (nbits w : Nat) : Option Instr :=
  match decode (tableBytes nbits w) with
  | .instr i _ => some i
  | .invalid _ => none
  | .tooLong => none
  | .refused _ => none

end Sys2Proof
end

