-- ==== Sys2Proof/Machine/State.lean ====
section
/-! DEFINITION. The machine's state as plain data (10_state.md R20; 70_reset_and_hazards.md R231), the reasons a
step can stop (60_exceptions.md R191, R204; 20_memory.md R63) and the state a run starts from. -/

namespace Sys2Proof.Machine

/-- Memory: (address, byte) pairs, addresses strictly rising, no entry equal to what an unlisted address reads as
(`Memory.wf`, Machine/Ops.lean). -/
abbrev Memory := List Host.Cell

/-- How many writes of other agents to an address the machine has seen: (address, number) pairs in the same canonical
form, none for an address of which it has seen no write (R65, log entry 12). -/
abbrev Seen := List (Nat × Nat)

/-- What the launch memory allows of a region (R63). -/
inductive Access where
  /-- mapped, readable at every privilege level, ordinary memory -/
  | ordinary
  /-- mapped, readable below privilege level 3 only (R196, R209) -/
  | supervisor
  /-- a read page-faults; the flags are the error code's bits P, RSVD and PK (R196) -/
  | faulting (present rsvd pk : Bool)
  /-- device memory or memory with read side effects: `admits` answers none (R59, U8) -/
  | device
  deriving DecidableEq, Repr

/-- A region of the launch memory: the addresses base, …, base + size - 1 (R63, D17). -/
structure Region where
  base : Nat
  size : Nat
  access : Access
  /-- another agent may write it during the run, so it is not private memory (R66, D24) -/
  shared : Bool
  deriving DecidableEq, Repr

/-- What `admits` answers for one byte (R63). -/
inductive ByteAnswer where
  | ok
  | pageFault (code : BitVec 32)
  | device
  | nothing
  deriving DecidableEq, Repr

/-- The segment an access is attributed to, which chooses between #SS(0) and #GP(0) (R109). -/
inductive Segment where
  | ds
  | ss
  | fs
  | gs
  deriving DecidableEq, Repr

/-- The exceptions these instructions can raise (R191). -/
inductive Exception where
  /-- #UD -/
  | ud
  /-- #NM -/
  | nm
  /-- #SS(0) -/
  | ss
  /-- #GP(0) -/
  | gp
  /-- #PF(code), with the address for CR2 -/
  | pf (code : BitVec 32) (cr2 : Addr)
  deriving DecidableEq, Repr

/-- The record an exception leaves (R204): vector, error code if any, CR2 if #PF, and the RIP of the faulting
instruction. -/
structure ExceptionRecord where
  vector : Nat
  errorCode : Option (BitVec 32)
  cr2 : Option Addr
  rip : Addr
  deriving DecidableEq, Repr

/-- Why the machine stops in the middle of a run. -/
inductive Fault where
  /-- An exception of R191, raised by a meaning or by the decoder: the spec's fault outcome (R204, D11). The state
  is the one before the step (R205). Safe: no claim of completion goes through it. -/
  | raised (r : ExceptionRecord)
  /-- Raised by a memory form: the launch memory says nothing of a byte that counts (R63, D17). Stuck, safe. -/
  | stuckUnlisted
  /-- Raised by a memory form: a byte that counts lies in device memory (R59, U8). Stuck, safe. -/
  | stuckDevice
  /-- Raised by a memory form: the operand wraps past 2^64 (R62, U11). Stuck, safe. -/
  | stuckWrap
  deriving DecidableEq, Repr

/-- Why a step has no meaning. -/
inductive Refusal where
  /-- Raised by `exec`'s arm of an instruction without a meaning. None is left. Safe. -/
  | notModelled (mnemonic : String)
  /-- Raised by a step outside 64-bit mode (R3, D1). Safe. -/
  | notMode64
  /-- Raised by a step: the code region wraps or leaves canonical space (R27, D15, U11). Safe. -/
  | codeRegion
  /-- Raised by a step: RIP is not at an instruction of the program (R234). Safe. -/
  | ripOutsideProgram
  /-- Raised by a step: RIP is at the end of the program; the run is over and the state final (R234). Safe. -/
  | endOfRun
  /-- Raised by a step: the bytes at RIP are not an instruction of this spec (R118, R120). Safe. -/
  | notThisFamily (why : DecodeRefusal)
  deriving DecidableEq, Repr

/-- The state (R20, with the parameters of R9, R63 and R71 held as data). -/
structure State where
  /-- ZMM0 to ZMM31 (R21) -/
  zmm : Vector Vec 32
  /-- k0 to k7, each a number below 2^cfg.maxKl (R23) -/
  k : Vector MaskVal 8
  /-- RAX to R15 by number (R26) -/
  gpr : Vector Addr 16
  /-- RIP (R27) -/
  rip : Addr
  /-- FS.base (R28) -/
  fsBase : Addr
  /-- GS.base (R28) -/
  gsBase : Addr
  /-- RFLAGS, never read or written (R29) -/
  rflags : BitVec 64
  /-- MXCSR, never read or written (R30) -/
  mxcsr : BitVec 32
  /-- CR0 (R31) -/
  cr0 : BitVec 64
  /-- CR4 (R31) -/
  cr4 : BitVec 64
  /-- XCR0 (R31) -/
  xcr0 : BitVec 64
  /-- IA32_EFER (R31) -/
  efer : BitVec 64
  /-- the CS descriptor's L bit (R31) -/
  csL : Bool
  /-- the current privilege level (R34, R209) -/
  cpl : BitVec 2
  /-- the constants of the part (R9, R33) -/
  cfg : Config
  /-- the launch memory's admission map (R63) -/
  map : List Region
  /-- the launch memory's contents (R35, R66) -/
  mem : Memory
  /-- the address of the program's first byte (R71, R234) -/
  codeBase : Addr
  /-- the program's bytes (R71, R234) -/
  code : List Byte
  /-- the place this agent's reads have reached in each location's order of other agents' writes (R65, R66;
  log entry 12) -/
  seen : Seen
  /-- the model's own counter of free-value draws (log entries 11, 12) -/
  draws : Nat
  deriving DecidableEq, Repr

/-- The state a run starts from: the launch state of R231, which replaces reset in the spec (D14), with the
premises mode64, evex_enabled, ts_clear and features of R232. DESIGN CHOICE and PRESUMED values: log entries 1 to 6, 12, 30.
No program is loaded. -/
def State.reset : State where
  zmm := Vector.replicate 32 0#512
  k := Vector.replicate 8 0
  gpr := Vector.replicate 16 0#64
  rip := 0xFFF0#64
  fsBase := 0#64
  gsBase := 0#64
  rflags := 2#64
  mxcsr := 0x1F80#32
  cr0 := 0xE0000011#64
  cr4 := 0x40000#64
  xcr0 := 0xE7#64
  efer := 0x400#64
  csL := true
  cpl := 0#2
  cfg := { cpuid7Ebx := 0xC0010000#32, vaBits := .bits48, faultSuppression := false, maxKl := 64, maxKl_ge := by decide }
  map := [{ base := 0, size := 2 ^ 64, access := .ordinary, shared := false }]
  mem := []
  codeBase := 0xFFF0#64
  code := []
  seen := []
  draws := 0

/-- The hardware's own reset, for the record (R38, R230): real-address mode with CR4.OSXSAVE = 0 and XCR0 = 1. No run
starts here: no form can execute in it. DESIGN CHOICE, log entry 34: R38's table gives no value for the CS descriptor's
L bit and no privilege level; here L is 0 and the level, the configuration and the launch memory are those of
`State.reset`. -/
def State.powerUp : State :=
  { State.reset with
    cr0 := 0x60000010#64
    cr4 := 0#64
    xcr0 := 1#64
    efer := 0#64
    csL := false }

end Sys2Proof.Machine
end

