-- ==== Sys2Proof/Machine/Ops.lean ====
section
/-! DEFINITION. The named operations over registers, enabling state and memory, taking an exception, and the checks
every form makes before it executes (10_state.md, 20_memory.md, 60_exceptions.md). -/

namespace Sys2Proof

/-! ### Parameters of a form and of the part -/

/-- VL, the vector length in bits (R7). -/
def VecLen.bits : VecLen → Nat
  | .v128 => 128
  | .v256 => 256
  | .v512 => 512

/-- KL = VL / 16, the number of word lanes and of mask bits produced (R7, R134). -/
def VecLen.lanes : VecLen → Nat
  | .v128 => 8
  | .v256 => 16
  | .v512 => 32

/-- VL / 8, the bytes of a memory operand (R50) and the displacement factor N (R107). -/
def VecLen.bytes : VecLen → Nat
  | .v128 => 16
  | .v256 => 32
  | .v512 => 64

/-- CPUID reports AVX512F: leaf 7 EBX bit 16 (R33). No check of the spec reads it (log entry 29). -/
def Config.avx512f (c : Config) : Bool := c.cpuid7Ebx.getLsbD 16

/-- CPUID reports AVX512BW: leaf 7 EBX bit 30 (R33). -/
def Config.avx512bw (c : Config) : Bool := c.cpuid7Ebx.getLsbD 30

/-- CPUID reports AVX512VL: leaf 7 EBX bit 31 (R33). -/
def Config.avx512vl (c : Config) : Bool := c.cpuid7Ebx.getLsbD 31

namespace Machine

/-! ### Registers -/

/-- k[n] (R23). -/
def State.kReg (s : State) (n : BitVec 3) : MaskVal := s.k[n.toNat]'n.isLt

/-- k[n] <- v, the whole register: its MAX_KL bits (R12, R25). -/
def State.setK (s : State) (n : BitVec 3) (v : MaskVal) : State :=
  { s with k := s.k.set n.toNat (v % 2 ^ s.cfg.maxKl) n.isLt }

/-- zmm[n] (R21). -/
def State.zmmReg (s : State) (n : BitVec 5) : Vec := s.zmm[n.toNat]'n.isLt

/-- gpr[n] (R26). -/
def State.gprReg (s : State) (n : BitVec 4) : Addr := s.gpr[n.toNat]'n.isLt

/-- rip <- a (R27). -/
def State.setRip (s : State) (a : Addr) : State := { s with rip := a }

/-! ### Enabling state (R31, R32, R33) -/

/-- CR0.PE, bit 0. -/
def State.cr0Pe (s : State) : Bool := s.cr0.getLsbD 0

/-- CR0.TS, bit 3. -/
def State.cr0Ts (s : State) : Bool := s.cr0.getLsbD 3

/-- CR0.PG, bit 31. -/
def State.cr0Pg (s : State) : Bool := s.cr0.getLsbD 31

/-- CR4.OSXSAVE, bit 18. -/
def State.cr4Osxsave (s : State) : Bool := s.cr4.getLsbD 18

/-- IA32_EFER.LMA, bit 10. -/
def State.eferLma (s : State) : Bool := s.efer.getLsbD 10

/-- The processor is in 64-bit mode: PE, PG, LMA and CS.L are 1 (R31; DEDUCED, log entry 23). -/
def State.mode64 (s : State) : Bool := s.cr0Pe && s.cr0Pg && s.eferLma && s.csL

/-- XCR0 enables SSE and AVX state (bits 2:1 = 11b) and opmask, ZMM_Hi256 and Hi16_ZMM state (bits 7:5 = 111b). -/
def State.xcr0Enabled (s : State) : Bool :=
  s.xcr0.getLsbD 1 && s.xcr0.getLsbD 2 && s.xcr0.getLsbD 5 && s.xcr0.getLsbD 6 && s.xcr0.getLsbD 7

/-- `evex_enabled` (R32). -/
def State.evexEnabled (s : State) : Bool := s.cr4Osxsave && s.xcr0Enabled && s.mode64

/-- Every feature flag of the form's row is reported: AVX512BW, and AVX512VL for the 128- and 256-bit forms
(R33, R193). -/
def State.features (s : State) (vl : VecLen) : Bool :=
  s.cfg.avx512bw &&
    match vl with
    | .v128 => s.cfg.avx512vl
    | .v256 => s.cfg.avx512vl
    | .v512 => true

/-! ### Taking an exception (R191, R204, R205)

The exception is the fault outcome of the step: no state is changed and the agent makes no further step. Delivery
through a descriptor table and the return from a handler are in no source and not in scope (R204, R206, D11). -/

/-- The exception's number (R191). -/
def Exception.vector : Exception → Nat
  | .ud => 6
  | .nm => 7
  | .ss => 12
  | .gp => 13
  | .pf _ _ => 14

/-- The exception's error code (R191). -/
def Exception.errorCode : Exception → Option (BitVec 32)
  | .ud => none
  | .nm => none
  | .ss => some 0#32
  | .gp => some 0#32
  | .pf code _ => some code

/-- The value recorded in CR2 (R191, R196). -/
def Exception.cr2 : Exception → Option Addr
  | .ud => none
  | .nm => none
  | .ss => none
  | .gp => none
  | .pf _ a => some a

/-- The fault outcome of an exception raised by the instruction at RIP (R204). -/
def Exception.fault (e : Exception) (s : State) : Fault :=
  .raised { vector := e.vector, errorCode := e.errorCode, cr2 := e.cr2, rip := s.rip }

/-- `raise` (R12, R205). -/
def raise (e : Exception) (s : State) : Host.Outcome State Fault Refusal := .fault (e.fault s)

/-- The error code of a page fault on a data read (R196): bit 0 P, bit 1 W/R = 0, bit 2 U/S, bit 3 RSVD,
bit 4 I/D = 0, bit 5 PK. -/
def pageFaultCode (present rsvd pk : Bool) (cpl : BitVec 2) : BitVec 32 :=
  (0#26 ++ (BitVec.ofBool pk ++ (0#1 ++ (BitVec.ofBool rsvd ++ (BitVec.ofBool (cpl == 3#2) ++
    (0#1 ++ BitVec.ofBool present))))) : BitVec (26 + (1 + (1 + (1 + (1 + (1 + 1)))))))

/-! ### The #UD checks that read state or operand fields (R192 to R194) -/

/-- An encoding bit that must be 0 is 1: z, b, R, R' (R95, R114, R115, R194). -/
def fixedBitsWrong (f : FixedBits) : Bool := f.r || f.rHi || f.z || f.b

/-- Some #UD condition holds (R192 to R194). -/
def State.invalidOpcode (s : State) (vl : VecLen) (o : Operands) : Bool :=
  !s.evexEnabled || !s.features vl || fixedBitsWrong o.fixed

/-! ### Cells: data by address, in one canonical form

`d` is what an address that is not listed holds. -/

/-- What an address holds. -/
def cellsRead {α : Type} (d : α) : List (Nat × α) → Nat → α
  | [], _ => d
  | (k, b) :: t, a => if k = a then b else cellsRead d t a

/-- Put a value into sorted cells; the value of an unlisted address removes the entry. -/
def cellsPut {α : Type} [DecidableEq α] (d : α) : List (Nat × α) → Nat → α → List (Nat × α)
  | [], a, v => if v = d then [] else [(a, v)]
  | (k, b) :: t, a, v =>
    if a < k then (if v = d then (k, b) :: t else (a, v) :: (k, b) :: t)
    else if a = k then (if v = d then t else (a, v) :: t)
    else (k, b) :: cellsPut d t a v

/-- The canonical form from address `lo` on: addresses strictly rising and inside the address space, no entry that an
unlisted address would hold. -/
def cellsWf {α : Type} [DecidableEq α] (d : α) (lo : Nat) : List (Nat × α) → Bool
  | [] => true
  | (k, b) :: t => decide (lo ≤ k) && decide (k < 2 ^ 64) && !decide (b = d) && cellsWf d (k + 1) t

/-! ### Memory contents -/

/-- What an address that memory does not list reads as (DESIGN CHOICE, log entry 5). -/
def Memory.unlisted : Byte := 0#8

/-- One byte of memory. -/
def Memory.read (m : Memory) (a : Nat) : Byte := cellsRead Memory.unlisted m a

/-- Write one byte. No instruction does (R50): this is how the outside world fills the launch memory (R231). -/
def Memory.write (m : Memory) (a : Addr) (v : Byte) : Memory := cellsPut Memory.unlisted m a.toNat v

/-- Write bytes at successive addresses, modulo 2^64 (R62). -/
def Memory.writeBytes (m : Memory) (a : Addr) : List Byte → Memory
  | [] => m
  | b :: t => Memory.writeBytes (m.write a b) (a + 1#64) t

/-- The canonical form: addresses strictly rising, inside the address space, nothing listed that equals what an
unlisted address reads as. -/
def Memory.wf (m : Memory) : Bool := cellsWf Memory.unlisted 0 m

/-- The canonical form of the numbers of writes seen. -/
def Seen.wf (q : Seen) : Bool := cellsWf 0 0 q

/-! ### Addresses, admission and the read (R52, R58 to R66) -/

/-- A canonical address: bits 63:va_bits-1 are all 0 or all 1 (R61). -/
def isCanonical (v : VaBits) (a : Addr) : Bool :=
  a >>> (v.toNat - 1) == 0#64 || (~~~a) >>> (v.toNat - 1) == 0#64

/-- The region an address lies in: the first that holds it (log entry 9). -/
def State.regionAt (s : State) (a : Addr) : Option Region :=
  s.map.find? fun r => decide (r.base ≤ a.toNat) && decide (a.toNat < r.base + r.size)

/-- What a region's access kind answers at a privilege level (R63, R196). -/
def Access.answer (cpl : BitVec 2) : Access → ByteAnswer
  | .ordinary => .ok
  | .supervisor => if cpl = 3#2 then .pageFault (pageFaultCode true false false cpl) else .ok
  | .faulting present rsvd pk => .pageFault (pageFaultCode present rsvd pk cpl)
  | .device => .device

/-- What the launch memory answers for one byte (R63). -/
def State.answer (s : State) (a : Addr) : ByteAnswer :=
  match s.regionAt a with
  | none => .nothing
  | some r => r.access.answer s.cpl

/-- Another agent may write the byte: it is not private memory (R66). -/
def State.sharedAt (s : State) (a : Addr) : Bool :=
  match s.regionAt a with
  | none => false
  | some r => r.shared

/-- The number of writes of other agents to an address that this agent's earlier reads have seen (R65). -/
def State.seenAt (s : State) (a : Addr) : Nat := cellsRead 0 s.seen a.toNat

/-- The place in the location's order of writes that the next read of an address finds: never before the one an earlier
read has seen (R65 clause 1, D10). -/
def State.placeAt (s : State) (a : Addr) : Nat := s.seenAt a + Config.newWrites s.draws a

/-- The value at a place in a location's order of writes: the launch contents, then what the others wrote (R65, U5). -/
def State.valueAt (s : State) (a : Addr) : (place : Nat) → Byte
  | 0 => s.mem.read a.toNat
  | n + 1 => Config.writtenByte a n

/-- The byte a read finds: the launch contents, or, where another agent may write, a value of the location's order of
writes (R65, R66). -/
def State.byteAt (s : State) (a : Addr) : Byte :=
  if s.sharedAt a then s.valueAt a (s.placeAt a) else s.mem.read a.toNat

/-- Bytes as one value, the first least significant (R52). -/
def bytesLE : List Byte → Vec
  | [] => 0#512
  | b :: t => (bytesLE t <<< 8) ||| b.setWidth 512

/-- The address of byte `i` of an operand at `la` (R62). -/
def byteAddr (la : Addr) (i : Nat) : Addr := la + BitVec.ofNat 64 i

/-- The writes seen after a read of the first `n` bytes at `la`. -/
def State.seenAfter (s : State) (la : Addr) : (n : Nat) → Seen
  | 0 => s.seen
  | n + 1 =>
    if s.sharedAt (byteAddr la n) then
      cellsPut 0 (s.seenAfter la n) (byteAddr la n).toNat (s.placeAt (byteAddr la n))
    else s.seenAfter la n

/-- The state after a read of `n` bytes at `la`: the places reached are remembered, and the free values of the next
read are new ones (R65, log entry 12). -/
def State.observe (s : State) (la : Addr) (n : Nat) : State :=
  { s with seen := s.seenAfter la n, draws := s.draws + 1 }

/-- MemRead(la, n) (R12, R52). -/
def State.memRead (s : State) (la : Addr) (n : Nat) : Vec :=
  bytesLE ((List.range n).map fun i => s.byteAt (byteAddr la i))

/-- A page fault at an address, if the launch memory answers one. -/
def State.pageFaultAt (s : State) (a : Addr) : Option (Addr × BitVec 32) :=
  match s.answer a with
  | .ok => none
  | .pageFault code => some (a, code)
  | .device => none
  | .nothing => none

/-- Element `n` of a list that is not empty, counted round. -/
def pickFrom {α : Type} (n : Nat) (x : α) (xs : List α) : α := (x :: xs).getD (n % (xs.length + 1)) x

/-- The paging check of the bytes that count (R63, R196): stuck where the launch memory says nothing or the memory
is a device's; else a page fault, its address drawn from those not admitted (U6); else admitted. -/
def State.pagingCheck (s : State) (counted : List Addr) : Option Fault :=
  if counted.any (fun a => s.answer a == .nothing) then some .stuckUnlisted
  else if counted.any (fun a => s.answer a == .device) then some .stuckDevice
  else
    match counted.filterMap s.pageFaultAt with
    | [] => none
    | x :: xs =>
      let drawn := pickFrom (Config.faultDraw s.draws) x xs
      some ((Exception.pf drawn.2 drawn.1).fault s)

/-- The checks of a memory operand (R60 to R63, R196 to R199): the canonical check of the bytes that count, then the
wrap-around, then paging. None means the read is admitted. -/
def State.operandCheck (s : State) (seg : Segment) (la : Addr) (n : Nat) (counted : List Addr) : Option Fault :=
  if counted.any (fun a => !isCanonical s.cfg.vaBits a) then
    some ((if seg = .ss then Exception.ss else Exception.gp).fault s)
  else if 2 ^ 64 < la.toNat + n then some .stuckWrap
  else s.pagingCheck counted

end Machine

end Sys2Proof
end

