-- ==== Sys2Proof/Machine/Operands.lean ====
section
/-! DEFINITION. Reading operands: the writemask, the vector registers, and the memory operand's effective and linear
address (30_encoding.md R95 to R111). -/

namespace Sys2Proof.Machine

/-! ### Writemask and vector registers -/

/-- m: none without a writemask, else k[MASK] (R96, R146 step 4). -/
def State.maskOperand (s : State) (mask : BitVec 3) : Option MaskVal :=
  if mask = 0#3 then none else some (s.kReg mask)

/-- Lane `j` is active: no writemask, or its bit is 1 (R136). -/
def laneActive (m : Option MaskVal) (j : Nat) : Bool :=
  match m with
  | none => true
  | some v => v.testBit j

/-- zmm[n][VL-1:0] (R12, R22), with zeros above. -/
def State.readVec (s : State) (vl : VecLen) (n : BitVec 5) : Vec :=
  ((s.zmmReg n).setWidth vl.bits).setWidth 512

/-! ### Effective address (R100 to R108, R111) -/

/-- The displacement's value: disp8 is scaled by N = VL/8, disp32 is not (R102, R107). -/
def Disp.value (vl : VecLen) : Disp → Addr
  | .zero => 0#64
  | .disp8 d => d.signExtend 64 * BitVec.ofNat 64 vl.bytes
  | .disp32 d => d.signExtend 64

/-- The index part: 0 for number 4, else gpr[index] (R105). -/
def State.indexValue (s : State) (index : BitVec 4) : Addr :=
  if index = 4#4 then 0#64 else s.gprReg index

/-- base_v of R108: `nextRip` for RIP-relative, 0 without a base. -/
def State.baseValue (s : State) (nextRip : Addr) : MemOperand → Addr
  | .base b _ => s.gprReg b
  | .ripRel _ => nextRip
  | .sib b _ _ _ => s.gprReg b
  | .sibNoBase _ _ _ => 0#64

/-- index_v of R108. -/
def State.indexPart (s : State) : MemOperand → Addr
  | .base _ _ => 0#64
  | .ripRel _ => 0#64
  | .sib _ _ i _ => s.indexValue i
  | .sibNoBase _ i _ => s.indexValue i

/-- The scale, an exponent of 2 (R104). -/
def MemOperand.scale : MemOperand → Nat
  | .base _ _ => 0
  | .ripRel _ => 0
  | .sib _ sc _ _ => sc.toNat
  | .sibNoBase sc _ _ => sc.toNat

/-- disp_v of R108. -/
def MemOperand.dispValue (vl : VecLen) : MemOperand → Addr
  | .base _ d => Disp.value vl d
  | .ripRel d => d.signExtend 64
  | .sib _ _ _ d => Disp.value vl d
  | .sibNoBase _ _ d => d.signExtend 64

/-- EA = (base + index * 2^scale + displacement) mod 2^64 (R108). -/
def ea64 (base index disp : Addr) (scale : Nat) : Addr := base + (index <<< scale) + disp

/-- EA under the address-size prefix: the low 32 bits of base and index, the sum modulo 2^32, zero-extended (R111). -/
def ea32 (base index disp : Addr) (scale : Nat) : Addr :=
  (base.setWidth 32 + ((index.setWidth 32) <<< scale) + disp.setWidth 32 : BitVec 32).setWidth 64

/-- next_rip = rip + L (R27). -/
def State.nextRip (s : State) (o : Operands) : Addr := s.rip + BitVec.ofNat 64 o.length

/-- The effective address of a memory operand (R108, R111). -/
def State.effectiveAddress (s : State) (vl : VecLen) (o : Operands) (m : MemOperand) : Addr :=
  let base := s.baseValue (s.nextRip o) m
  let index := s.indexPart m
  let disp := MemOperand.dispValue vl m
  if o.pre.addr32 then ea32 base index disp (MemOperand.scale m) else ea64 base index disp (MemOperand.scale m)

/-! ### Linear address and segment (R109, R110) -/

/-- segbase: FS.base under 64h, GS.base under 65h, else 0. -/
def State.segBase (s : State) : Option SegPrefix → Addr
  | none => 0#64
  | some .es => 0#64
  | some .cs => 0#64
  | some .ss => 0#64
  | some .ds => 0#64
  | some .fs => s.fsBase
  | some .gs => s.gsBase

/-- The default segment: SS where the base register is RSP or RBP, number 4 or 5, else DS. -/
def MemOperand.defaultSegment : MemOperand → Segment
  | .base b _ => if b = 4#4 ∨ b = 5#4 then .ss else .ds
  | .ripRel _ => .ds
  | .sib b _ _ _ => if b = 4#4 ∨ b = 5#4 then .ss else .ds
  | .sibNoBase _ _ _ => .ds

/-- The segment the access is attributed to: FS and GS by their prefixes; the other overrides have no effect. -/
def segmentOf (seg : Option SegPrefix) (m : MemOperand) : Segment :=
  match seg with
  | none => MemOperand.defaultSegment m
  | some .es => MemOperand.defaultSegment m
  | some .cs => MemOperand.defaultSegment m
  | some .ss => MemOperand.defaultSegment m
  | some .ds => MemOperand.defaultSegment m
  | some .fs => .fs
  | some .gs => .gs

/-- la = (segbase + EA) mod 2^64 (R109). -/
def State.linearAddress (s : State) (vl : VecLen) (o : Operands) (m : MemOperand) : Addr :=
  s.segBase o.pre.seg + s.effectiveAddress vl o m

/-! ### The second source (R98, R146 step 5) -/

/-- The offsets of the operand's bytes that count for faults: all of them, or under fault suppression those of the
active lanes (R60, R199). -/
def State.countedOffsets (s : State) (vl : VecLen) (m : Option MaskVal) : List Nat :=
  if s.cfg.faultSuppression then (List.range vl.bytes).filter fun i => laneActive m (i / 2)
  else List.range vl.bytes

/-- The addresses of the bytes that count. -/
def State.countedBytes (s : State) (vl : VecLen) (mask : BitVec 3) (la : Addr) : List Addr :=
  (s.countedOffsets vl (s.maskOperand mask)).map (byteAddr la)

/-- The check of a memory operand: none where its read is admitted. -/
def State.memoryCheck (s : State) (vl : VecLen) (o : Operands) (m : MemOperand) : Option Fault :=
  let la := s.linearAddress vl o m
  s.operandCheck (segmentOf o.pre.seg m) la vl.bytes (s.countedBytes vl o.mask la)

/-- SRC2 and the state after its read; a memory read remembers which writes of others it saw (R65). -/
def State.readSource2 (s : State) (vl : VecLen) (o : Operands) : Except Fault (Vec × State) :=
  match o.src2 with
  | .reg n => .ok (s.readVec vl n, s)
  | .mem m =>
    match s.memoryCheck vl o m with
    | some f => .error f
    | none => .ok (s.memRead (s.linearAddress vl o m) vl.bytes,
        s.observe (s.linearAddress vl o m) vl.bytes)

end Sys2Proof.Machine
end

