-- ==== Sys2Proof/Machine/Flags.lean ====
section
/-! DEFINITION. The comparison and the mask bits it computes (40_compare_common.md R131 to R138). The results go to a
mask register; no form reads or writes a flag of RFLAGS or MXCSR (10_state.md R29, R30). -/

namespace Sys2Proof.Machine

/-- The predicate P = IMM8[2:0]; bits 7:3 are ignored (R113, R131, D4). -/
def predicateBits (imm8 : BitVec 8) : BitVec 3 := imm8.extractLsb' 0 3

/-- The predicate table (R131). -/
def predicateOf (p : BitVec 3) : Predicate :=
  match p.toNat with
  | 0 => .eq
  | 1 => .lt
  | 2 => .le
  | 3 => .never
  | 4 => .neq
  | 5 => .nlt
  | 6 => .nle
  | _ => .always

/-- `a OP b` (R132). -/
def Predicate.holds (p : Predicate) (a b : Int) : Bool :=
  match p with
  | .eq => decide (a = b)
  | .lt => decide (a < b)
  | .le => decide (a ≤ b)
  | .never => false
  | .neq => !decide (a = b)
  | .nlt => !decide (a < b)
  | .nle => !decide (a ≤ b)
  | .always => true

/-- The integer a word denotes: toSigned16 or toUnsigned16 (R12, R133). -/
def wordValue (sg : Signedness) (w : Word) : Int :=
  match sg with
  | .signed => w.toInt
  | .unsigned => (w.toNat : Int)

/-- Lane j of an operand: bits 16j+15:16j (R134). -/
def lane (v : Vec) (j : Nat) : Word := v.extractLsb' (16 * j) 16

/-- CMP_j: the comparison of lane j of SRC1, on the left, with lane j of SRC2 (R135, R140). -/
def laneTrue (sg : Signedness) (p : BitVec 3) (s1 s2 : Vec) (j : Nat) : Bool :=
  Predicate.holds (predicateOf p) (wordValue sg (lane s1 j)) (wordValue sg (lane s2 j))

/-- The mask value whose bits below `n` are `f` and whose other bits are 0. -/
def collectLanes (f : Nat → Bool) : Nat → MaskVal
  | 0 => 0
  | n + 1 => collectLanes f n ||| (if f n then 2 ^ n else 0)

/-- The whole operation (R138): bits KL-1:0 the results of the active lanes, all other bits 0. -/
def vpcmp (sg : Signedness) (vl : VecLen) (p : BitVec 3) (s1 s2 : Vec) (m : Option MaskVal) : MaskVal :=
  collectLanes (fun j => laneActive m j && laneTrue sg p s1 s2 j) vl.lanes

end Sys2Proof.Machine
end

