-- ==== Sys2Proof/Machine/Compare.lean ====
section
/-! DEFINITION. The step all six forms share (40_compare_common.md R146): checks in the order of R203, operands read
before the destination is written (R139), then the mask register and RIP. -/

namespace Sys2Proof.Machine

/-- The state after a completed form: k[DEST] holds the result and RIP is past the instruction (R146 steps 7, 8).
`t` is the state after the source was read. -/
def State.complete (t : State) (o : Operands) (r : MaskVal) : State :=
  (t.setK o.dest r).setRip (t.nextRip o)

/-- One form of VPCMPW or VPCMPUW (R146, R153). -/
def compareWords (sg : Signedness) (vl : VecLen) (o : Operands) (s : State) : Host.Outcome State Fault Refusal :=
  if s.mode64 = false then .refused .notMode64
  else if s.invalidOpcode vl o then raise .ud s
  else if s.cr0Ts then raise .nm s
  else
    match s.readSource2 vl o with
    | .error f => .fault f
    | .ok (s2, t) =>
      .next (t.complete o
        (vpcmp sg vl (predicateBits o.imm8) (s.readVec vl o.src1) s2 (s.maskOperand o.mask)))

end Sys2Proof.Machine
end

