-- ==== Sys2Proof/Machine/Vpcmpuw.lean ====
section
/-! DEFINITION. The meanings of VPCMPUW, unsigned compare (42_vpcmpuw.md). -/

namespace Sys2Proof.Machine

/-- VPCMPUW k1 {k2}, xmm2, xmm3/m128, imm8 (R160). -/
def execVpcmpuw128 (o : Operands) (s : State) : Host.Outcome State Fault Refusal :=
  compareWords .unsigned .v128 o s

/-- VPCMPUW k1 {k2}, ymm2, ymm3/m256, imm8 (R161). -/
def execVpcmpuw256 (o : Operands) (s : State) : Host.Outcome State Fault Refusal :=
  compareWords .unsigned .v256 o s

/-- VPCMPUW k1 {k2}, zmm2, zmm3/m512, imm8 (R162). -/
def execVpcmpuw512 (o : Operands) (s : State) : Host.Outcome State Fault Refusal :=
  compareWords .unsigned .v512 o s

end Sys2Proof.Machine
end

