-- ==== Sys2Proof/Machine/Vpcmpw.lean ====
section
/-! DEFINITION. The meanings of VPCMPW, signed compare (41_vpcmpw.md). -/

namespace Sys2Proof.Machine

/-- VPCMPW k1 {k2}, xmm2, xmm3/m128, imm8 (R150). -/
def execVpcmpw128 (o : Operands) (s : State) : Host.Outcome State Fault Refusal :=
  compareWords .signed .v128 o s

/-- VPCMPW k1 {k2}, ymm2, ymm3/m256, imm8 (R151). -/
def execVpcmpw256 (o : Operands) (s : State) : Host.Outcome State Fault Refusal :=
  compareWords .signed .v256 o s

/-- VPCMPW k1 {k2}, zmm2, zmm3/m512, imm8 (R152). -/
def execVpcmpw512 (o : Operands) (s : State) : Host.Outcome State Fault Refusal :=
  compareWords .signed .v512 o s

end Sys2Proof.Machine
end

