-- ==== Sys2Proof/Machine/Dispatch.lean ====
section
/-! DEFINITION. exec: one arm per constructor of Instr. -/

namespace Sys2Proof.Machine

def exec (i : Instr) (s : State) : Host.Outcome State Fault Refusal :=
  match i with
  | .vpcmpw128 o => Sys2Proof.Machine.execVpcmpw128 o s
  | .vpcmpw256 o => Sys2Proof.Machine.execVpcmpw256 o s
  | .vpcmpw512 o => Sys2Proof.Machine.execVpcmpw512 o s
  | .vpcmpuw128 o => Sys2Proof.Machine.execVpcmpuw128 o s
  | .vpcmpuw256 o => Sys2Proof.Machine.execVpcmpuw256 o s
  | .vpcmpuw512 o => Sys2Proof.Machine.execVpcmpuw512 o s

end Sys2Proof.Machine
end

