-- ==== Sys2Proof/Machine/Fetch.lean ====
section
/-! DEFINITION. The program and the fetch (20_memory.md R71, 70_reset_and_hazards.md R234): code is a byte string at
`codeBase`, and RIP takes the values codeBase + (sum of the first lengths). -/

namespace Sys2Proof.Machine

/-- Is `off` the sum of the lengths of the first few instructions of `bs`? `fuel` bounds their number. -/
def startsAt : (fuel : Nat) → (bs : List Byte) → (off : Nat) → Bool
  | _, _, 0 => true
  | 0, _, _ + 1 => false
  | fuel + 1, bs, off + 1 =>
    match decode bs with
    | .instr i rest => decide (i.length ≤ off + 1) && startsAt fuel rest (off + 1 - i.length)
    | .invalid _ => false
    | .tooLong => false
    | .refused _ => false

/-- RIP's offset in the code region. -/
def State.ripOffset (s : State) : Nat := (s.rip - s.codeBase).toNat

/-- The code region, its end included, lies in one half of canonical space and does not wrap (R27, R232, D15). -/
def State.codeRegionOk (s : State) : Bool :=
  let first := s.codeBase.toNat
  let last := first + s.code.length
  decide (last < 2 ^ 64) &&
    (decide (last < 2 ^ (s.cfg.vaBits.toNat - 1)) || decide (2 ^ 64 - 2 ^ (s.cfg.vaBits.toNat - 1) ≤ first))

/-- RIP is at an instruction of the program or at its end (R234). -/
def State.atProgramPoint (s : State) : Bool :=
  decide (s.ripOffset ≤ s.code.length) && startsAt s.code.length s.code s.ripOffset

/-- RIP is at the end of the program: the run is over (R234). -/
def State.atEnd (s : State) : Bool := s.ripOffset == s.code.length

/-- Why no instruction is fetched, if none is (R3, R27, R234). -/
def State.fetchRefusal (s : State) : Option Refusal :=
  if s.mode64 = false then some .notMode64
  else if s.codeRegionOk = false then some .codeRegion
  else if s.atProgramPoint = false then some .ripOutsideProgram
  else if s.atEnd then some .endOfRun
  else none

/-- Decode the bytes at RIP (R71, R120). -/
def State.fetch (s : State) : Decoded := decode (s.code.drop s.ripOffset)

/-- An encoding that raises #UD while it is decoded, whatever its reason (R194). -/
def raiseInvalid (_why : InvalidEncoding) (s : State) : Host.Outcome State Fault Refusal := raise .ud s

/-- An instruction longer than 15 bytes (R83, R197). -/
def raiseTooLong (s : State) : Host.Outcome State Fault Refusal := raise .gp s

/-- The program `bytes` placed at RIP, for the load from outside (R71, R231). -/
def State.loadCode (s : State) (bytes : List Byte) : State := { s with codeBase := s.rip, code := bytes }

end Sys2Proof.Machine
end

