-- ==== Sys2Proof/Machine/Step.lean ====
section
/-! DEFINITION. One step of the agent (40_compare_common.md R146): fetch, decode, execute. -/

namespace Sys2Proof.Machine

/-- One step. -/
def step (s : State) : Host.Outcome State Fault Refusal :=
  match s.fetchRefusal with
  | some r => .refused r
  | none =>
    match s.fetch with
    | .instr i _ => exec i s
    | .invalid why => raiseInvalid why s
    | .tooLong => raiseTooLong s
    | .refused why => .refused (.notThisFamily why)

/-- The state with a table word's instruction as the program at RIP (R71, R117; log entry 6). -/
def State.withFetchWord (s : State) (nbits w : Nat) : State := s.loadCode (tableBytes nbits w)

end Sys2Proof.Machine
end

