-- ==== Sys2Proof/Machine/Pseudo.lean ====
section
/-! DEFINITION. Pseudo-ops and intrinsics (43_pseudo_ops_and_intrinsics.md R172 to R175): other spellings of the six
forms. Nothing in a step uses this file. -/

namespace Sys2Proof.Machine

/-- The predicate part of a pseudo-op's name (R172). -/
def pseudoImm : Predicate → Option (BitVec 8)
  | .eq => some 0#8
  | .lt => some 1#8
  | .le => some 2#8
  | .never => none
  | .neq => some 4#8
  | .nlt => some 5#8
  | .nle => some 6#8
  | .always => none

/-- A pseudo-op's mnemonic (R172): none for FALSE and TRUE. -/
def pseudoName (sg : Signedness) (p : Predicate) : Option String :=
  let tail := match sg with
    | .signed => "W"
    | .unsigned => "UW"
  match p with
  | .eq => some ("VPCMPEQ" ++ tail)
  | .lt => some ("VPCMPLT" ++ tail)
  | .le => some ("VPCMPLE" ++ tail)
  | .never => none
  | .neq => some ("VPCMPNEQ" ++ tail)
  | .nlt => some ("VPCMPNLT" ++ tail)
  | .nle => some ("VPCMPNLE" ++ tail)
  | .always => none

/-- A pseudo-op assembles to VPCMPW or VPCMPUW with its immediate and the operands in place (R172). -/
def pseudoExpand (sg : Signedness) (vl : VecLen) (p : Predicate) (o : Operands) : Option Instr :=
  (pseudoImm p).map fun imm => .ofForm sg vl { o with imm8 := imm }

/-- The named intrinsics' predicates (R175). -/
inductive IntrinsicName where
  | cmpeq
  | cmplt
  | cmple
  | cmpneq
  | cmpge
  | cmpgt
  deriving DecidableEq, Repr

/-- The predicate a named intrinsic fixes (R175). -/
def intrinsicPredicate : IntrinsicName → BitVec 3
  | .cmpeq => 0#3
  | .cmplt => 1#3
  | .cmple => 2#3
  | .cmpneq => 4#3
  | .cmpge => 5#3
  | .cmpgt => 6#3

/-- `_mm*_cmp_ep[iu]16_mask(a, b, cmp)` and, with `m`, `_mm*_mask_cmp_ep[iu]16_mask(m, a, b, cmp)`: bits KL-1:0 of
DEST in a type of exactly KL bits (R174). -/
def intrinsicMask (sg : Signedness) (vl : VecLen) (m : Option (BitVec vl.lanes)) (a b : Vec) (cmp : BitVec 8) :
    BitVec vl.lanes :=
  BitVec.ofNat vl.lanes (vpcmp sg vl (predicateBits cmp) a b (m.map fun v => v.toNat))

end Sys2Proof.Machine
end

