-- ==== Sys2Proof/Safety.lean ====
section
/-! DEFINITION. The terms claims are stated in: when a form executes normally (70_reset_and_hazards.md R232,
20_memory.md R63), what result the spec gives it (40_compare_common.md R134 to R137), what it leaves alone
(10_state.md R20), and when a run is over (R234). -/

namespace Sys2Proof.Machine

/-- The premises evex_enabled, features and ts_clear of R232 for a vector length; evex_enabled holds in 64-bit mode
only (R32). -/
abbrev State.Ready (s : State) (vl : VecLen) : Prop :=
  s.evexEnabled = true ∧ s.features vl = true ∧ s.cr0Ts = false

/-- A byte a read may touch: canonical, and the launch memory admits it (R61, R63). -/
abbrev State.ByteReadable (s : State) (a : Addr) : Prop :=
  isCanonical s.cfg.vaBits a = true ∧ s.answer a = .ok

/-- The memory operand can be read: it does not wrap, and every byte that counts is readable (R60, R62, R63). -/
abbrev State.MemoryReadable (s : State) (vl : VecLen) (o : Operands) (m : MemOperand) : Prop :=
  (s.linearAddress vl o m).toNat + vl.bytes ≤ 2 ^ 64 ∧
    ∀ a ∈ s.countedBytes vl o.mask (s.linearAddress vl o m), s.ByteReadable a

/-- SRC2 can be read; a register always can (R64). -/
def State.SourceReadable (s : State) (vl : VecLen) (o : Operands) : Prop :=
  match o.src2 with
  | .reg _ => True
  | .mem m => s.MemoryReadable vl o m

/-- Lane j of SRC1 (R134). -/
def State.leftLane (s : State) (o : Operands) (j : Nat) : Word := (s.zmmReg o.src1).extractLsb' (16 * j) 16

/-- Lane j of SRC2: of a register, or of memory the byte at la+2j+1 followed by the byte at la+2j (R53, R134). -/
def State.rightLane (s : State) (vl : VecLen) (o : Operands) (j : Nat) : Word :=
  match o.src2 with
  | .reg n => (s.zmmReg n).extractLsb' (16 * j) 16
  | .mem m =>
    let la := s.linearAddress vl o m
    (s.byteAt (la + BitVec.ofNat 64 (2 * j + 1)) ++ s.byteAt (la + BitVec.ofNat 64 (2 * j)) : BitVec (8 + 8))

/-- Lane j is compared: no writemask, or its bit in the writemask register is 1 (R136). -/
def State.laneOn (s : State) (o : Operands) (j : Nat) : Bool :=
  o.mask == 0#3 || (s.kReg o.mask).testBit j

/-- k[DEST] in `t` holds the result of comparing `kl` lanes of `s`, read as integers by `value`, and 0 in every
other bit (R135 to R137). -/
def ResultIs (s t : State) (vl : VecLen) (kl : Nat) (value : Word → Int) (o : Operands) : Prop :=
  ∀ j : Nat, (t.kReg o.dest).testBit j =
    (decide (j < kl) && s.laneOn o j &&
      Predicate.holds (predicateOf (o.imm8.extractLsb' 0 3)) (value (s.leftLane o j)) (value (s.rightLane vl o j)))

/-- Everything but the mask registers, RIP and what records the reads of other agents' writes is as before (R20). -/
structure Untouched (s t : State) : Prop where
  zmm : t.zmm = s.zmm
  gpr : t.gpr = s.gpr
  fsBase : t.fsBase = s.fsBase
  gsBase : t.gsBase = s.gsBase
  rflags : t.rflags = s.rflags
  mxcsr : t.mxcsr = s.mxcsr
  cr0 : t.cr0 = s.cr0
  cr4 : t.cr4 = s.cr4
  xcr0 : t.xcr0 = s.xcr0
  efer : t.efer = s.efer
  csL : t.csL = s.csL
  cpl : t.cpl = s.cpl
  cfg : t.cfg = s.cfg
  map : t.map = s.map
  codeBase : t.codeBase = s.codeBase
  code : t.code = s.code
  memory : ∀ a : Nat, t.mem.read a = s.mem.read a

/-- The launch premises of R232 that the state carries, whatever forms the program uses, with the forms its data keep:
the canonical form of memory and of the writes seen, and mask registers of MAX_KL bits (R23). -/
structure State.LaunchOk (s : State) : Prop where
  mode64 : s.mode64 = true
  evexEnabled : s.evexEnabled = true
  tsClear : s.cr0Ts = false
  avx512bw : s.cfg.avx512bw = true
  codeRegion : s.codeRegionOk = true
  atProgramPoint : s.atProgramPoint = true
  memory : s.mem.wf = true
  seen : s.seen.wf = true
  masks : ∀ n, s.kReg n < 2 ^ s.cfg.maxKl

/-- The run is over: RIP is at the end of the program (R234). -/
def State.Final (s : State) : Prop := s.LaunchOk ∧ s.atEnd = true

/-- Decoding from the front gives these instructions in turn, and leaves these bytes (R234). -/
def DecodesTo : List Byte → List Instr → List Byte → Prop
  | bs, [], rest => rest = bs
  | bs, i :: is, rest => ∃ bs', decode bs = .instr i bs' ∧ DecodesTo bs' is rest

/-- A byte that may stand before 62h: 67h or a segment override (R110, R111). -/
abbrev AdmittedByte (b : Byte) : Prop :=
  b ∈ [0x67#8, 0x26#8, 0x2E#8, 0x36#8, 0x3E#8, 0x64#8, 0x65#8]

/-- The bytes `ps` are a run of prefixes the model admits, in any order, and say what `pre` says (R110, R111). -/
abbrev PrefixRun (ps : List Byte) (pre : Prefixes) : Prop :=
  (∀ p ∈ ps, AdmittedByte p) ∧ ps.length = pre.length ∧ (0x67#8 ∈ ps ↔ pre.addr32 = true) ∧
    ∀ row ∈ [(0x26#8, SegPrefix.es), (0x2E#8, .cs), (0x36#8, .ss), (0x3E#8, .ds), (0x64#8, .fs), (0x65#8, .gs)],
      row.1 ∈ ps ↔ pre.seg = some row.2

/-- The same form with other prefixes. -/
def withPrefixes (i : Instr) (pre : Prefixes) : Instr :=
  .ofForm i.signedness i.vecLen { i.operands with pre := pre }

/-- A byte that may not: LOCK, 66h, F2h, F3h or REX (R112). -/
abbrev ForbiddenByte (b : Byte) : Prop :=
  b ∈ [0xF0#8, 0x66#8, 0xF2#8, 0xF3#8] ∨ (0x40 ≤ b.toNat ∧ b.toNat ≤ 0x4F)

/-- The bytes are at most one 67h and at most one segment override, then a forbidden byte, any further prefix bytes, 62h
and `tail`; `n` of them stand before 62h (R120 steps 1 and 2). -/
def ForbiddenBefore (n : Nat) (bs tail : List Byte) : Prop :=
  ∃ ps f qs, bs = ps ++ f :: (qs ++ 0x62#8 :: tail) ∧ n = ps.length + 1 + qs.length ∧
    (∀ p ∈ ps, AdmittedByte p) ∧ ps.count 0x67#8 ≤ 1 ∧ ps.length ≤ ps.count 0x67#8 + 1 ∧
    ForbiddenByte f ∧ ∀ q ∈ qs, AdmittedByte q ∨ ForbiddenByte q

/-- The displacement of a memory operand with a base register, as an integer: none, disp8 times VL/8, disp32
(R101, R102, R106, R107). -/
def Disp.amount (vl : VecLen) : Disp → Int
  | .zero => 0
  | .disp8 d => d.toInt * vl.bytes
  | .disp32 d => d.toInt

/-- The address lies in the region. -/
abbrev Region.Holds (r : Region) (a : Addr) : Prop := r.base ≤ a.toNat ∧ a.toNat < r.base + r.size

/-- Every byte of the operand is private memory (R66). -/
def State.PrivateOperand (s : State) (vl : VecLen) (o : Operands) : Prop :=
  match o.src2 with
  | .reg _ => True
  | .mem m => ∀ i < vl.bytes, s.sharedAt (byteAddr (s.linearAddress vl o m) i) = false

/-- The access is through the stack segment: no FS or GS override and RSP or RBP as base register (R109, R198). -/
def StackAccess (o : Operands) (m : MemOperand) : Prop :=
  o.pre.seg ≠ some .fs ∧ o.pre.seg ≠ some .gs ∧
    ((∃ b d, m = .base b d ∧ (b = 4#4 ∨ b = 5#4)) ∨ ∃ b sc i d, m = .sib b sc i d ∧ (b = 4#4 ∨ b = 5#4))

/-- ones(KL): bits KL-1:0 set (R142). -/
def ones (vl : VecLen) : MaskVal := 2 ^ vl.lanes - 1

/-- NOT v, in MAX_KL bits (R142). -/
def maskNot (maxKl : Nat) (v : MaskVal) : MaskVal := v % 2 ^ maxKl ^^^ (2 ^ maxKl - 1)

/-- act: the lanes compared, ones(KL) under the writemask if there is one (R142). -/
def activeOnes (vl : VecLen) (m : Option MaskVal) : MaskVal :=
  match m with
  | none => ones vl
  | some v => v &&& ones vl

/-- 8000h in every lane (R142, law 8). -/
def signBits : Vec := BitVec.ofNat 512 (0x8000 * ((2 ^ 512 - 1) / 65535))

/-! ### The page's loop, one bit at a time (41_vpcmpw.md, R139) -/

/-- DEST[j] <- b. -/
def setMaskBit (v : MaskVal) (j : Nat) (b : Bool) : MaskVal :=
  if b then v ||| 2 ^ j else (v ||| 2 ^ j) ^^^ 2 ^ j

/-- The first `n` iterations of the loop: iteration j reads bit j of the writemask register as it is then, and writes
bit j of the destination register. -/
def pageLoop (sg : Signedness) (p : BitVec 3) (s1 s2 : Vec) (mask dest : BitVec 3) : Nat → State → State
  | 0, s => s
  | j + 1, s =>
    let u := pageLoop sg p s1 s2 mask dest j s
    u.setK dest (setMaskBit (u.kReg dest) j
      ((mask == 0#3 || (u.kReg mask).testBit j) && laneTrue sg p s1 s2 j))

/-- The loop, then DEST[MAX_KL-1:KL] <- 0. -/
def pageOperation (sg : Signedness) (vl : VecLen) (p : BitVec 3) (s1 s2 : Vec) (mask dest : BitVec 3)
    (s : State) : State :=
  let u := pageLoop sg p s1 s2 mask dest vl.lanes s
  u.setK dest (u.kReg dest &&& ones vl)

end Sys2Proof.Machine
end

