-- ==== Sys2Proof/Certificates/Slice0/Obligations.lean ====
section
/-! DEFINITION. The statements for the provers: what the numbered rules of spec/ say the decoder, the six forms and the
machine do. -/

open Sys2Proof Sys2Proof.Machine

/-! ### Decoding and encoding (30_encoding.md) -/

/-- R120, R121: decoding the bytes of any instruction the encoding can express gives it back, with every operand at
every value and the bytes after it untouched; an instruction whose fixed bits are wrong is included (R118). -/
def Obligations.DecodeOfEncode : Prop :=
  ∀ (i : Instr) (rest : List Byte), i.encodable = true → decode (encode i ++ rest) = .instr i rest

/-- R83, R101, R106, R120 steps 1 to 3, R208: a decoded instruction is of a shape the encoding can express and takes its
length from the bytes, between 7 and 14 of them: a run of the prefixes it names, in either order, then 62h and the bytes
that decode to the same form without prefixes; no other byte string is one. And before 62h such a run of prefixes only
adds what it names: an instruction gets them, every other answer stays. -/
def Obligations.DecodedInstrTakesItsLength : Prop :=
  (∀ (bs : List Byte) (i : Instr) (rest : List Byte), decode bs = .instr i rest →
    i.encodable = true ∧ rest = bs.drop i.length ∧ bs.length = i.length + rest.length ∧
      7 ≤ i.length ∧ i.length ≤ 14 ∧
      ∃ ps t, bs = ps ++ 0x62#8 :: t ∧ PrefixRun ps i.operands.pre ∧
        decode (0x62#8 :: t) = .instr (withPrefixes i { seg := none, addr32 := false }) rest) ∧
  ∀ (ps t : List Byte) (pre : Prefixes), PrefixRun ps pre →
    (∀ j rest, decode (0x62#8 :: t) = .instr j rest →
      decode (ps ++ 0x62#8 :: t) = .instr (withPrefixes j pre) rest) ∧
    ((∀ j rest, decode (0x62#8 :: t) ≠ .instr j rest) → decode (ps ++ 0x62#8 :: t) = decode (0x62#8 :: t))

/-- R122 and 95_test_vectors.md 2.1: words written out from the encoding tables, one per form. -/
def Obligations.WorkedWordsDecode : Prop :=
  decode [0x62#8, 0xF3#8, 0xF5#8, 0x08#8, 0x3F#8, 0xCA#8, 0x01#8] =
    .instr (.vpcmpw128
      { pre := { seg := none, addr32 := false }, fixed := { r := false, rHi := false, z := false, b := false },
        dest := 1#3, mask := 0#3, src1 := 1#5, src2 := .reg 2#5, imm8 := 1#8 }) [] ∧
  decode [0x62#8, 0xD3#8, 0xF5#8, 0x20#8, 0x3F#8, 0xD9#8, 0x05#8] =
    .instr (.vpcmpw256
      { pre := { seg := none, addr32 := false }, fixed := { r := false, rHi := false, z := false, b := false },
        dest := 3#3, mask := 0#3, src1 := 17#5, src2 := .reg 9#5, imm8 := 5#8 }) [] ∧
  decode [0x62#8, 0xF3#8, 0x8D#8, 0x47#8, 0x3F#8, 0x10#8, 0x06#8] =
    .instr (.vpcmpw512
      { pre := { seg := none, addr32 := false }, fixed := { r := false, rHi := false, z := false, b := false },
        dest := 2#3, mask := 7#3, src1 := 30#5, src2 := .mem (.base 0#4 .zero), imm8 := 6#8 }) [] ∧
  decode [0x62#8, 0xF3#8, 0xD5#8, 0x08#8, 0x3E#8, 0x64#8, 0x24#8, 0x01#8, 0x04#8] =
    .instr (.vpcmpuw128
      { pre := { seg := none, addr32 := false }, fixed := { r := false, rHi := false, z := false, b := false },
        dest := 4#3, mask := 0#3, src1 := 5#5, src2 := .mem (.sib 4#4 0#2 4#4 (.disp8 1#8)), imm8 := 4#8 }) [] ∧
  decode [0x62#8, 0xD3#8, 0xF5#8, 0x20#8, 0x3E#8, 0xD9#8, 0x05#8] =
    .instr (.vpcmpuw256
      { pre := { seg := none, addr32 := false }, fixed := { r := false, rHi := false, z := false, b := false },
        dest := 3#3, mask := 0#3, src1 := 17#5, src2 := .reg 9#5, imm8 := 5#8 }) [] ∧
  decode [0x62#8, 0xF3#8, 0xFD#8, 0x40#8, 0x3E#8, 0x0D#8, 0xC0#8, 0xFF#8, 0xFF#8, 0xFF#8, 0x02#8] =
    .instr (.vpcmpuw512
      { pre := { seg := none, addr32 := false }, fixed := { r := false, rHi := false, z := false, b := false },
        dest := 1#3, mask := 0#3, src1 := 16#5, src2 := .mem (.ripRel 0xFFFFFFC0#32), imm8 := 2#8 }) []

/-- R117: a byte string that starts with 62h and is long enough for SIB, displacement and immediate decodes to the form
of a table row exactly when its first six bytes, as one number, match the row under the mask. -/
def Obligations.TableRowSelectsForm : Prop :=
  ∀ (r : Instr) (b1 b2 b3 b4 b5 : Byte) (tail : List Byte), 6 ≤ tail.length →
    ((∃ i rest, decode (0x62#8 :: b1 :: b2 :: b3 :: b4 :: b5 :: tail) = .instr i rest ∧
        i.signedness = r.signedness ∧ i.vecLen = r.vecLen) ↔
      word48 0x62#8 b1 b2 b3 b4 b5 &&& tableMask = r.tableMatch)

/-- R118: the reserved encodings are invalid (#UD), the neighbours of the six forms are refused by name, L'L = 11b of a
matched row is invalid, and everything else is an instruction where at least six bytes follow ModRM (SIB, displacement
and immediate take no more); with fewer it is an instruction or truncated. -/
def Obligations.NeighbourEncodings : Prop :=
  ∀ (p0 p1 p2 op modrm : Byte) (tail : List Byte),
    let d := decode (0x62#8 :: p0 :: p1 :: p2 :: op :: modrm :: tail)
    if p0.extractLsb' 2 2 ≠ 0#2 ∨ p1.getLsbD 2 = false ∨ p0.extractLsb' 0 2 = 0#2 then ∃ why, d = .invalid why
    else if p0.extractLsb' 0 2 ≠ 3#2 ∨ (op ≠ 0x3E#8 ∧ op ≠ 0x3F#8) ∨ p1.extractLsb' 0 2 ≠ 1#2 ∨
        p1.getLsbD 7 = false then ∃ why, why ≠ .truncated ∧ d = .refused why
    else if p2.extractLsb' 5 2 = 3#2 then d = .invalid .vectorLength
    else (∃ i rest, d = .instr i rest) ∨ (tail.length < 6 ∧ d = .refused .truncated)

/-- R112, R203: LOCK, 66h, F2h, F3h or REX before 62h, after at most one 67h and one segment override and before any
further prefix bytes, raises #UD; but #GP(0), which R203 puts first, where the bytes from 62h on are an instruction of
this family and it is longer than 15 bytes with all its prefix bytes (R83). Nothing else decodes as too long. That other
bytes after 62h (another instruction, a reserved encoding, or an instruction cut off by the end of the code) raise #UD at
any length is the model's reading (log entry 17). -/
def Obligations.ForbiddenPrefixRaisesUd : Prop :=
  (∀ (s : State) (n : Nat) (tail : List Byte), s.fetchRefusal = none →
    ForbiddenBefore n (s.code.drop s.ripOffset) tail →
    (∀ i rest, decode (0x62#8 :: tail) = .instr i rest →
      step s =
        if 15 < n + i.length then
          .fault (.raised { vector := 13, errorCode := some 0#32, cr2 := none, rip := s.rip })
        else .fault (.raised { vector := 6, errorCode := none, cr2 := none, rip := s.rip })) ∧
    ((∀ i rest, decode (0x62#8 :: tail) ≠ .instr i rest) →
      step s = .fault (.raised { vector := 6, errorCode := none, cr2 := none, rip := s.rip }))) ∧
  ∀ bs : List Byte, decode bs = .tooLong →
    ∃ n tail i rest, ForbiddenBefore n bs tail ∧ decode (0x62#8 :: tail) = .instr i rest ∧ 15 < n + i.length

/-- R110, R111, R120 step 1, D19: a run of admitted bytes with two 67h or two segment overrides anywhere in it is refused,
whatever follows. -/
def Obligations.RepeatedPrefixRefused : Prop :=
  ∀ ps rest : List Byte, (∀ p ∈ ps, AdmittedByte p) →
    (2 ≤ ps.count 0x67#8 ∨ ps.count 0x67#8 + 2 ≤ ps.length) → decode (ps ++ rest) = .refused .repeatedPrefix

/-! ### The six forms: completion and result (41_vpcmpw.md, 42_vpcmpuw.md) -/

/-- R150: the 128-bit VPCMPW, register and memory form, completes and compares 8 signed lanes. -/
def Obligations.Vpcmpw128Completes : Prop :=
  ∀ (o : Operands) (s : State), s.Ready .v128 → o.fixed.legal = true → s.SourceReadable .v128 o →
    ∃ t, exec (.vpcmpw128 o) s = .next t ∧ ResultIs s t .v128 8 (fun w => w.toInt) o ∧
      t.rip = s.rip + BitVec.ofNat 64 o.length

/-- R151: the 256-bit VPCMPW, register and memory form, completes and compares 16 signed lanes. -/
def Obligations.Vpcmpw256Completes : Prop :=
  ∀ (o : Operands) (s : State), s.Ready .v256 → o.fixed.legal = true → s.SourceReadable .v256 o →
    ∃ t, exec (.vpcmpw256 o) s = .next t ∧ ResultIs s t .v256 16 (fun w => w.toInt) o ∧
      t.rip = s.rip + BitVec.ofNat 64 o.length

/-- R152: the 512-bit VPCMPW, register and memory form, completes and compares 32 signed lanes. -/
def Obligations.Vpcmpw512Completes : Prop :=
  ∀ (o : Operands) (s : State), s.Ready .v512 → o.fixed.legal = true → s.SourceReadable .v512 o →
    ∃ t, exec (.vpcmpw512 o) s = .next t ∧ ResultIs s t .v512 32 (fun w => w.toInt) o ∧
      t.rip = s.rip + BitVec.ofNat 64 o.length

/-- R160: the 128-bit VPCMPUW, register and memory form, completes and compares 8 unsigned lanes. -/
def Obligations.Vpcmpuw128Completes : Prop :=
  ∀ (o : Operands) (s : State), s.Ready .v128 → o.fixed.legal = true → s.SourceReadable .v128 o →
    ∃ t, exec (.vpcmpuw128 o) s = .next t ∧ ResultIs s t .v128 8 (fun w => (w.toNat : Int)) o ∧
      t.rip = s.rip + BitVec.ofNat 64 o.length

/-- R161: the 256-bit VPCMPUW, register and memory form, completes and compares 16 unsigned lanes. -/
def Obligations.Vpcmpuw256Completes : Prop :=
  ∀ (o : Operands) (s : State), s.Ready .v256 → o.fixed.legal = true → s.SourceReadable .v256 o →
    ∃ t, exec (.vpcmpuw256 o) s = .next t ∧ ResultIs s t .v256 16 (fun w => (w.toNat : Int)) o ∧
      t.rip = s.rip + BitVec.ofNat 64 o.length

/-- R162: the 512-bit VPCMPUW, register and memory form, completes and compares 32 unsigned lanes. -/
def Obligations.Vpcmpuw512Completes : Prop :=
  ∀ (o : Operands) (s : State), s.Ready .v512 → o.fixed.legal = true → s.SourceReadable .v512 o →
    ∃ t, exec (.vpcmpuw512 o) s = .next t ∧ ResultIs s t .v512 32 (fun w => (w.toNat : Int)) o ∧
      t.rip = s.rip + BitVec.ofNat 64 o.length

/-! ### Frame (10_state.md R20) -/

/-- R20, R22, R26, R29, R30, R50: of all six forms, whatever the operands: vector and general registers, segment bases,
RFLAGS, MXCSR, the enabling state, the privilege level, the configuration, the admission map, the code and every byte of
memory are as before; so is every mask register but DEST. Of the model's own fields (log entry 12) the draw counter
advances with a memory form only, and the place reached in a location's order of writes changes at the shared bytes of
the operand only. -/
def Obligations.FrameOfEveryForm : Prop :=
  ∀ (i : Instr) (s t : State), exec i s = .next t →
    Untouched s t ∧ (∀ n, n ≠ i.operands.dest → t.kReg n = s.kReg n) ∧
      ((∃ n, i.operands.src2 = .reg n ∧ t.draws = s.draws ∧ t.seen = s.seen) ∨
        ∃ m, i.operands.src2 = .mem m ∧ t.draws = s.draws + 1 ∧
          (s.seen.wf = true → ∀ a : Addr,
            (s.sharedAt a = false ∨
              ∀ j < i.vecLen.bytes, a ≠ s.linearAddress i.vecLen i.operands m + BitVec.ofNat 64 j) →
            t.seenAt a = s.seenAt a))

/-- R137: bits MAX_KL-1:KL of DEST are 0 afterwards, and DEST's old value survives in no bit: with another old value
(where DEST is not also the writemask) the instruction completes with the same new one. -/
def Obligations.DestinationWrittenWhole : Prop :=
  (∀ (i : Instr) (s t : State), exec i s = .next t →
    ∀ j, i.vecLen.lanes ≤ j → (t.kReg i.operands.dest).testBit j = false) ∧
  ∀ (i : Instr) (s t : State) (v : MaskVal), exec i s = .next t →
    (i.operands.mask = 0#3 ∨ i.operands.mask ≠ i.operands.dest) →
    ∃ u, exec i (s.setK i.operands.dest v) = .next u ∧ u.kReg i.operands.dest = t.kReg i.operands.dest

/-- R22: no form writes a vector register, and the bits of the vector registers above VL do not influence the result. -/
def Obligations.VectorBitsAboveLengthIgnored : Prop :=
  (∀ (i : Instr) (s t : State), exec i s = .next t → t.zmm = s.zmm) ∧
  ∀ (i : Instr) (s t : State) (z : Vector Vec 32), exec i s = .next t →
    (∀ (n : BitVec 5) (j : Nat), j < i.vecLen.bits →
      (({ s with zmm := z } : State).zmmReg n).getLsbD j = (s.zmmReg n).getLsbD j) →
    ∃ u, exec i { s with zmm := z } = .next u ∧ u.k = t.k ∧ u.rip = t.rip

/-- R136: the bits of the writemask register above KL-1 have no effect, on the result or on completing. -/
def Obligations.MaskBitsAboveLanesIgnored : Prop :=
  ∀ (i : Instr) (s t : State) (v : MaskVal), exec i s = .next t → i.operands.mask ≠ 0#3 →
    (∀ j < i.vecLen.lanes, v.testBit j = (s.kReg i.operands.mask).testBit j) →
    ∃ u, exec i (s.setK i.operands.mask v) = .next u ∧ u.kReg i.operands.dest = t.kReg i.operands.dest

/-- R113, R142 law 9: a form depends on its immediate only through bits 2:0. -/
def Obligations.ImmediateHighBitsIgnored : Prop :=
  ∀ (sg : Signedness) (vl : VecLen) (o : Operands) (s : State),
    exec (.ofForm sg vl { o with imm8 := o.imm8 &&& 7#8 }) s = exec (.ofForm sg vl o) s

/-! ### The comparison (40_compare_common.md) -/

/-- R139, R138: the page's loop, run bit by bit on the mask registers themselves, even with DEST and the writemask the
same register, leaves the state in which DEST holds `vpcmp` of the old writemask and nothing else has changed. -/
def Obligations.PageLoopIsVpcmp : Prop :=
  ∀ (sg : Signedness) (vl : VecLen) (p : BitVec 3) (s1 s2 : Vec) (mask dest : BitVec 3) (s : State),
    pageOperation sg vl p s1 s2 mask dest s = s.setK dest (vpcmp sg vl p s1 s2 (s.maskOperand mask))

/-- R131: the predicate is the number IMM8[2:0], and it selects the comparison of every lane by the source's table, the
same one for both mnemonics and for all three lengths. -/
def Obligations.PredicateNumbers : Prop :=
  ∀ (sg : Signedness) (vl : VecLen) (imm8 : BitVec 8) (s1 s2 : Vec) (j : Nat), j < vl.lanes →
    some ((vpcmp sg vl (predicateBits imm8) s1 s2 none).testBit j) =
      ([Predicate.eq, .lt, .le, .never, .neq, .nlt, .nle, .always][imm8.toNat % 8]?).map fun op =>
        Predicate.holds op (wordValue sg (lane s1 j)) (wordValue sg (lane s2 j))

/-- R132: what each comparison means. -/
def Obligations.PredicateMeanings : Prop :=
  ∀ a b : Int,
    (Predicate.holds .eq a b = true ↔ a = b) ∧ (Predicate.holds .lt a b = true ↔ a < b) ∧
    (Predicate.holds .le a b = true ↔ a ≤ b) ∧ Predicate.holds .never a b = false ∧
    (Predicate.holds .neq a b = true ↔ a ≠ b) ∧ (Predicate.holds .nlt a b = true ↔ b ≤ a) ∧
    (Predicate.holds .nle a b = true ↔ b < a) ∧ Predicate.holds .always a b = true

/-- R133: a signed word w is w up to 7FFFh and w - 65536 from 8000h; an unsigned one denotes itself. -/
def Obligations.WordValues : Prop :=
  ∀ w : Word,
    wordValue .signed w = (if w.toNat ≤ 0x7FFF then (w.toNat : Int) else (w.toNat : Int) - 65536) ∧
    wordValue .unsigned w = (w.toNat : Int)

/-- R141: the exact outcomes at the corners, for one lane, as (w1, w2, signed predicates that give 1, unsigned ones). -/
def Obligations.CornerOutcomes : Prop :=
  ∀ row ∈ ([(0x0000, 0x0000, [0, 2, 5, 7], [0, 2, 5, 7]), (0x0000, 0x0001, [1, 2, 4, 7], [1, 2, 4, 7]),
      (0x0001, 0x0000, [4, 5, 6, 7], [4, 5, 6, 7]), (0x7FFF, 0x8000, [4, 5, 6, 7], [1, 2, 4, 7]),
      (0x8000, 0x7FFF, [1, 2, 4, 7], [4, 5, 6, 7]), (0xFFFF, 0x0000, [1, 2, 4, 7], [4, 5, 6, 7]),
      (0x0000, 0xFFFF, [4, 5, 6, 7], [1, 2, 4, 7]), (0xFFFF, 0xFFFF, [0, 2, 5, 7], [0, 2, 5, 7]),
      (0x8000, 0x8000, [0, 2, 5, 7], [0, 2, 5, 7]), (0x8000, 0x8001, [1, 2, 4, 7], [1, 2, 4, 7])] :
      List (Nat × Nat × List Nat × List Nat)),
    (List.range 8).filter (fun p => laneTrue .signed (BitVec.ofNat 3 p) (BitVec.ofNat 512 row.1)
      (BitVec.ofNat 512 row.2.1) 0) = row.2.2.1 ∧
    (List.range 8).filter (fun p => laneTrue .unsigned (BitVec.ofNat 3 p) (BitVec.ofNat 512 row.1)
      (BitVec.ofNat 512 row.2.1) 0) = row.2.2.2

/-- R142 laws 1 and 2: no bit outside the active lanes is set, whatever MAX_KL is (R8), and masking is the AND of the
unmasked result. -/
def Obligations.LawRangeAndMask : Prop :=
  ∀ (sg : Signedness) (vl : VecLen) (p : BitVec 3) (s1 s2 : Vec) (m : Option MaskVal)
    (maxKl : Nat),
    vpcmp sg vl p s1 s2 m &&& maskNot maxKl (ones vl) = 0 ∧
    vpcmp sg vl p s1 s2 m &&& maskNot maxKl (activeOnes vl m) = 0 ∧
    vpcmp sg vl p s1 s2 m = vpcmp sg vl p s1 s2 none &&& activeOnes vl m

/-- R142 law 3: predicates P and P XOR 4 are complementary on the active lanes. -/
def Obligations.LawComplement : Prop :=
  ∀ (sg : Signedness) (vl : VecLen) (p : BitVec 3) (s1 s2 : Vec) (m : Option MaskVal),
    vpcmp sg vl p s1 s2 m ^^^ vpcmp sg vl (p ^^^ 4#3) s1 s2 m = activeOnes vl m

/-- R142 law 4: predicate 3 gives 0 and predicate 7 every active lane. -/
def Obligations.LawConstants : Prop :=
  ∀ (sg : Signedness) (vl : VecLen) (s1 s2 : Vec) (m : Option MaskVal),
    vpcmp sg vl 3#3 s1 s2 m = 0 ∧ vpcmp sg vl 7#3 s1 s2 m = activeOnes vl m

/-- R142 law 5: LT is NLE and LE is NLT with the sources swapped; EQ and NEQ are symmetric. -/
def Obligations.LawSwap : Prop :=
  ∀ (sg : Signedness) (vl : VecLen) (s1 s2 : Vec) (m : Option MaskVal),
    vpcmp sg vl 1#3 s1 s2 m = vpcmp sg vl 6#3 s2 s1 m ∧ vpcmp sg vl 2#3 s1 s2 m = vpcmp sg vl 5#3 s2 s1 m ∧
    vpcmp sg vl 0#3 s1 s2 m = vpcmp sg vl 0#3 s2 s1 m ∧ vpcmp sg vl 4#3 s1 s2 m = vpcmp sg vl 4#3 s2 s1 m

/-- R142 law 6: a source compared with itself. -/
def Obligations.LawSameSource : Prop :=
  ∀ (sg : Signedness) (vl : VecLen) (p : BitVec 3) (v : Vec) (m : Option MaskVal),
    vpcmp sg vl p v v m = if p = 0#3 ∨ p = 2#3 ∨ p = 5#3 ∨ p = 7#3 then activeOnes vl m else 0

/-- R142 law 7: EQ, FALSE, NEQ, TRUE do not depend on signedness; the ordered predicates agree in an active lane exactly
when the sign bits do. (In a lane switched off both results are 0 whatever the sign bits.) -/
def Obligations.LawSignedness : Prop :=
  ∀ (vl : VecLen) (p : BitVec 3) (s1 s2 : Vec) (m : Option MaskVal),
    ((p = 0#3 ∨ p = 3#3 ∨ p = 4#3 ∨ p = 7#3) →
      vpcmp .signed vl p s1 s2 m = vpcmp .unsigned vl p s1 s2 m) ∧
    ((p = 1#3 ∨ p = 2#3 ∨ p = 5#3 ∨ p = 6#3) → ∀ j < vl.lanes, (activeOnes vl m).testBit j = true →
      ((vpcmp .signed vl p s1 s2 m).testBit j = (vpcmp .unsigned vl p s1 s2 m).testBit j ↔
        s1.getLsbD (16 * j + 15) = s2.getLsbD (16 * j + 15)))

/-- R142 law 8: flipping every sign bit turns the signed comparison into the unsigned one. -/
def Obligations.LawBias : Prop :=
  ∀ (vl : VecLen) (p : BitVec 3) (s1 s2 : Vec) (m : Option MaskVal),
    vpcmp .signed vl p s1 s2 m = vpcmp .unsigned vl p (s1 ^^^ signBits) (s2 ^^^ signBits) m

/-- R142 law 10: the shorter form's result is the low bits of the longer form's. -/
def Obligations.LawLengthNesting : Prop :=
  ∀ (sg : Signedness) (p : BitVec 3) (s1 s2 : Vec) (m : Option MaskVal),
    vpcmp sg .v256 p s1 s2 m % 2 ^ 8 = vpcmp sg .v128 p s1 s2 m ∧
    vpcmp sg .v512 p s1 s2 m % 2 ^ 16 = vpcmp sg .v256 p s1 s2 m

/-! ### Exceptions (60_exceptions.md) -/

/-- R192 to R194, R205: in 64-bit mode a form raises #UD (vector 6, no error code, RIP its own address) exactly when
OSXSAVE is 0, an XCR0 bit it needs is 0, a feature flag of its row is 0, or z, b, R or R' is 1. -/
def Obligations.UdExactlyWhen : Prop :=
  ∀ (i : Instr) (s : State), s.mode64 = true →
    (exec i s = .fault (.raised { vector := 6, errorCode := none, cr2 := none, rip := s.rip }) ↔
      s.cr4.getLsbD 18 = false ∨
      (∃ n ∈ [1, 2, 5, 6, 7], s.xcr0.getLsbD n = false) ∨
      s.cfg.cpuid7Ebx.getLsbD 30 = false ∨
      (i.vecLen ≠ .v512 ∧ s.cfg.cpuid7Ebx.getLsbD 31 = false) ∨
      i.operands.fixed.z = true ∨ i.operands.fixed.b = true ∨ i.operands.fixed.r = true ∨
      i.operands.fixed.rHi = true)

/-- R195: #NM (vector 7) if CR0.TS = 1, once every #UD condition is false, whatever the memory operand is. -/
def Obligations.NmAfterUd : Prop :=
  ∀ (i : Instr) (s : State), s.evexEnabled = true → s.features i.vecLen = true → i.operands.fixed.legal = true →
    s.cr0.getLsbD 3 = true →
    exec i s = .fault (.raised { vector := 7, errorCode := none, cr2 := none, rip := s.rip })

/-- R3, R31: outside 64-bit mode (PE, PG, LMA or CS.L is 0: the model's reading of R31, log entry 23) every form and
every step is refused by name; the hardware's own reset state of R38 is such a state (its CS.L, level and configuration
are the model's choice, log entry 34), so no form executes in it. -/
def Obligations.OtherModesRefused : Prop :=
  (∀ (i : Instr) (s : State),
    (s.cr0.getLsbD 0 = false ∨ s.cr0.getLsbD 31 = false ∨ s.efer.getLsbD 10 = false ∨ s.csL = false) →
    exec i s = .refused .notMode64 ∧ step s = .refused .notMode64) ∧
  ∀ i : Instr, exec i State.powerUp = .refused .notMode64

/-- R197, R198, R199: a byte that counts and is not canonical raises #SS(0) where the access is through the stack
segment and #GP(0) elsewhere, whatever the launch memory says of the operand. -/
def Obligations.NonCanonicalOperandFaults : Prop :=
  ∀ (i : Instr) (s : State) (m : MemOperand), s.Ready i.vecLen → i.operands.fixed.legal = true →
    i.operands.src2 = .mem m →
    (∃ a ∈ s.countedBytes i.vecLen i.operands.mask (s.linearAddress i.vecLen i.operands m),
      isCanonical s.cfg.vaBits a = false) →
    (StackAccess i.operands m →
      exec i s = .fault (.raised { vector := 12, errorCode := some 0#32, cr2 := none, rip := s.rip })) ∧
    (¬StackAccess i.operands m →
      exec i s = .fault (.raised { vector := 13, errorCode := some 0#32, cr2 := none, rip := s.rip }))

/-- R196: where every byte that counts is canonical, the operand does not wrap, and the launch memory answers each byte
with ok or a page fault, at least one with a page fault, the form raises #PF (vector 14) with the error code and, for
CR2, the address of one of the bytes that are not admitted. -/
def Obligations.PageFaultIsRaised : Prop :=
  ∀ (i : Instr) (s : State) (m : MemOperand), s.Ready i.vecLen → i.operands.fixed.legal = true →
    i.operands.src2 = .mem m →
    (s.linearAddress i.vecLen i.operands m).toNat + i.vecLen.bytes ≤ 2 ^ 64 →
    (∀ a ∈ s.countedBytes i.vecLen i.operands.mask (s.linearAddress i.vecLen i.operands m),
      isCanonical s.cfg.vaBits a = true ∧ (s.answer a = .ok ∨ ∃ code, s.answer a = .pageFault code)) →
    (∃ a ∈ s.countedBytes i.vecLen i.operands.mask (s.linearAddress i.vecLen i.operands m), s.answer a ≠ .ok) →
    ∃ a ∈ s.countedBytes i.vecLen i.operands.mask (s.linearAddress i.vecLen i.operands m),
      ∃ code, s.answer a = .pageFault code ∧
        exec i s = .fault (.raised { vector := 14, errorCode := some code, cr2 := some a, rip := s.rip })

/-- R196, R63, R209: the bits of a page fault's error code, and what the launch memory answers for a byte: nothing where
no region holds it; else what the first region that holds it says at the privilege level: ordinary memory is admitted,
a supervisor region page-faults exactly at level 3 and then with P = 1, a faulting region always and with its own flags,
a device answers as such. The map of regions, and which bits they give, are log entries 8, 9 and 13. -/
def Obligations.PageFaultCodeBits : Prop :=
  (∀ (present rsvd pk : Bool) (cpl : BitVec 2) (n : Nat),
    (pageFaultCode present rsvd pk cpl).getLsbD n =
      if n = 0 then present else if n = 2 then decide (cpl = 3#2) else if n = 3 then rsvd
      else if n = 5 then pk else false) ∧
  ∀ (s : State) (a : Addr),
    ((∀ r ∈ s.map, ¬r.Holds a) → s.answer a = .nothing ∧ s.sharedAt a = false) ∧
    ∀ (before after : List Region) (r : Region), s.map = before ++ r :: after → (∀ q ∈ before, ¬q.Holds a) → r.Holds a →
      s.sharedAt a = r.shared ∧
      (r.access = .ordinary → s.answer a = .ok) ∧
      (r.access = .supervisor →
        s.answer a = if s.cpl = 3#2 then .pageFault (pageFaultCode true false false 3#2) else .ok) ∧
      (∀ present rsvd pk, r.access = .faulting present rsvd pk →
        s.answer a = .pageFault (pageFaultCode present rsvd pk s.cpl)) ∧
      (r.access = .device → s.answer a = .device)

/-- R59, R62, R63: where every byte that counts is canonical, an operand that wraps is stuck; one that does not is stuck
where the launch memory says nothing of a byte that counts, and otherwise where such a byte is a device's. Which of
the last two names is given, and that both go before a page fault, is the model's choice (log entry 10). -/
def Obligations.StuckOperands : Prop :=
  ∀ (i : Instr) (s : State) (m : MemOperand), s.Ready i.vecLen → i.operands.fixed.legal = true →
    i.operands.src2 = .mem m →
    (∀ a ∈ s.countedBytes i.vecLen i.operands.mask (s.linearAddress i.vecLen i.operands m),
      isCanonical s.cfg.vaBits a = true) →
    if 2 ^ 64 < (s.linearAddress i.vecLen i.operands m).toNat + i.vecLen.bytes then exec i s = .fault .stuckWrap
    else
      ((∃ a ∈ s.countedBytes i.vecLen i.operands.mask (s.linearAddress i.vecLen i.operands m),
          s.answer a = .nothing) → exec i s = .fault .stuckUnlisted) ∧
      ((∀ a ∈ s.countedBytes i.vecLen i.operands.mask (s.linearAddress i.vecLen i.operands m),
          s.answer a ≠ .nothing) →
        (∃ a ∈ s.countedBytes i.vecLen i.operands.mask (s.linearAddress i.vecLen i.operands m),
          s.answer a = .device) → exec i s = .fault .stuckDevice)

/-- R64: a register form makes no memory access, so it completes or stops with #UD, #NM or the mode refusal only. -/
def Obligations.RegisterFormsMakeNoAccess : Prop :=
  ∀ (i : Instr) (s : State) (n : BitVec 5), i.operands.src2 = .reg n →
    (∃ t, exec i s = .next t ∧ t.draws = s.draws) ∨
    exec i s = .fault (.raised { vector := 6, errorCode := none, cr2 := none, rip := s.rip }) ∨
    exec i s = .fault (.raised { vector := 7, errorCode := none, cr2 := none, rip := s.rip }) ∨
    exec i s = .refused .notMode64

/-- R60, R199: which bytes count: all VL/8 of them without fault suppression; with it, the two bytes of each active
lane. -/
def Obligations.BytesThatCount : Prop :=
  ∀ (s : State) (vl : VecLen) (mask : BitVec 3) (la a : Addr),
    a ∈ s.countedBytes vl mask la ↔
      if s.cfg.faultSuppression = true then
        ∃ j < vl.lanes, (mask = 0#3 ∨ (s.kReg mask).testBit j = true) ∧
          (a = la + BitVec.ofNat 64 (2 * j) ∨ a = la + BitVec.ofNat 64 (2 * j + 1))
      else ∃ i < vl.bytes, a = la + BitVec.ofNat 64 i

/-- R60: with fault suppression and every lane switched off, no memory fault is raised and DEST is 0. -/
def Obligations.AllLanesOffNeverFaults : Prop :=
  ∀ (i : Instr) (s : State) (m : MemOperand), s.Ready i.vecLen → i.operands.fixed.legal = true →
    i.operands.src2 = .mem m → s.cfg.faultSuppression = true → i.operands.mask ≠ 0#3 →
    (∀ j < i.vecLen.lanes, (s.kReg i.operands.mask).testBit j = false) →
    (s.linearAddress i.vecLen i.operands m).toNat + i.vecLen.bytes ≤ 2 ^ 64 →
    ∃ t, exec i s = .next t ∧ t.kReg i.operands.dest = 0

/-- R191, R204, R205: an exception record of a step holds the RIP of the instruction and is #UD, #NM, #SS(0), #GP(0) or
#PF with CR2; no other vector occurs (no #AC, no #XM). -/
def Obligations.OnlyFiveExceptions : Prop :=
  ∀ (s : State) (r : ExceptionRecord), step s = .fault (.raised r) →
    r.rip = s.rip ∧
      ((r.vector = 6 ∧ r.errorCode = none ∧ r.cr2 = none) ∨ (r.vector = 7 ∧ r.errorCode = none ∧ r.cr2 = none) ∨
       (r.vector = 12 ∧ r.errorCode = some 0#32 ∧ r.cr2 = none) ∨
       (r.vector = 13 ∧ r.errorCode = some 0#32 ∧ r.cr2 = none) ∨
       (r.vector = 14 ∧ r.errorCode.isSome = true ∧ r.cr2.isSome = true))

/-! ### Addresses and memory (20_memory.md, 30_encoding.md) -/

/-- R103: RIP-relative counts the whole instruction, the immediate included. -/
def Obligations.RipRelativeAddress : Prop :=
  ∀ (s : State) (vl : VecLen) (o : Operands) (d : BitVec 32), o.pre.addr32 = false →
    s.effectiveAddress vl o (.ripRel d) = s.rip + BitVec.ofNat 64 o.length + d.signExtend 64

/-- R107, R102: disp8 is sign-extended and multiplied by 16, 32 or 64; disp32 is sign-extended and never scaled. -/
def Obligations.CompressedDisplacement : Prop :=
  ∀ (d : BitVec 8) (e : BitVec 32) (vl : VecLen),
    Disp.value .v128 (.disp8 d) = BitVec.ofInt 64 (d.toInt * 16) ∧
    Disp.value .v256 (.disp8 d) = BitVec.ofInt 64 (d.toInt * 32) ∧
    Disp.value .v512 (.disp8 d) = BitVec.ofInt 64 (d.toInt * 64) ∧
    Disp.value vl (.disp32 e) = BitVec.ofInt 64 e.toInt

/-- R105: SIB index number 4 (X = 0, index = 100b) means no index; every other number names gpr[8*X + index]. -/
def Obligations.SibIndexRegister : Prop :=
  ∀ (s : State) (x : Bool) (index : BitVec 3),
    some (s.indexValue (extended x index)) =
      if x = false ∧ index = 4#3 then some 0#64 else s.gpr[8 * x.toNat + index.toNat]?

/-- R101 to R106, R108, R111: the effective address of each memory form, modulo 2^64, or with 67h its low 32 bits:
gpr[b] and the displacement; next_rip and disp32; gpr[b], the index register times 2^scale (none for number 4) and the
displacement; without a base, the index part and disp32. disp8 counts VL/8 times, disp32 once, both signed
(R102, R107). -/
def Obligations.EffectiveAddressSum : Prop :=
  ∀ (s : State) (vl : VecLen) (o : Operands),
    let wrap : Addr → Addr := fun x => if o.pre.addr32 = true then (x.setWidth 32).setWidth 64 else x
    let index : BitVec 4 → BitVec 2 → Addr := fun i sc =>
      if i = 4#4 then 0#64 else s.gpr[i.toNat]'i.isLt * BitVec.ofNat 64 (2 ^ sc.toNat)
    (∀ b d, s.effectiveAddress vl o (.base b d) =
      wrap (s.gpr[b.toNat]'b.isLt + BitVec.ofInt 64 (Disp.amount vl d))) ∧
    (∀ d, s.effectiveAddress vl o (.ripRel d) =
      wrap (s.rip + BitVec.ofNat 64 o.length + BitVec.ofInt 64 d.toInt)) ∧
    (∀ b sc i d, s.effectiveAddress vl o (.sib b sc i d) =
      wrap (s.gpr[b.toNat]'b.isLt + index i sc + BitVec.ofInt 64 (Disp.amount vl d))) ∧
    (∀ sc i d, s.effectiveAddress vl o (.sibNoBase sc i d) = wrap (index i sc + BitVec.ofInt 64 d.toInt))

/-- R109, R110: FS.base and GS.base are added under 64h and 65h; the other overrides have no effect. -/
def Obligations.SegmentOverrides : Prop :=
  ∀ (s : State) (vl : VecLen) (o : Operands) (m : MemOperand),
    s.linearAddress vl o m =
      (if o.pre.seg = some .fs then s.fsBase else if o.pre.seg = some .gs then s.gsBase else 0#64) +
        s.effectiveAddress vl o m

/-- R61: an address is canonical exactly when bits 63:va_bits-1 are all equal. -/
def Obligations.CanonicalMeansTopBitsEqual : Prop :=
  ∀ (v : VaBits) (a : Addr),
    isCanonical v a = true ↔ ∀ n, v.toNat - 1 ≤ n → n < 64 → a.getLsbD n = a.getLsbD 63

/-- R52, R53, R65, R66: MemRead is little-endian: bits 8i+7:8i are the byte at la+i, so lane j is the byte at la+2j+1
followed by the byte at la+2j. A private byte is the launch contents. A byte that another agent may write is a value of
its location's order of writes (the launch contents, or what some other agent wrote), at a place not before the one an
earlier read reached; a form that reads it remembers the place, so that later reads do not go backwards. How the places
are kept is log entry 12. -/
def Obligations.MemReadLittleEndian : Prop :=
  (∀ (s : State) (la : Addr) (n : Nat), n ≤ 64 →
    (∀ i < n, (s.memRead la n).extractLsb' (8 * i) 8 = s.byteAt (la + BitVec.ofNat 64 i)) ∧
    (∀ j, 2 * j + 1 < n → (s.memRead la n).extractLsb' (16 * j) 16 =
      (s.byteAt (la + BitVec.ofNat 64 (2 * j + 1)) ++ s.byteAt (la + BitVec.ofNat 64 (2 * j)) : BitVec (8 + 8)))) ∧
  (∀ (s : State) (a : Addr), s.sharedAt a = false → s.byteAt a = s.mem.read a.toNat) ∧
  ∀ (i : Instr) (s t : State) (m : MemOperand), s.seen.wf = true → i.operands.src2 = .mem m → exec i s = .next t →
    ∀ j < i.vecLen.bytes,
      let a := s.linearAddress i.vecLen i.operands m + BitVec.ofNat 64 j
      s.sharedAt a = true →
        s.seenAt a ≤ t.seenAt a ∧
        ((t.seenAt a = 0 ∧ s.byteAt a = s.mem.read a.toNat) ∨
          ∃ n, t.seenAt a = n + 1 ∧ s.byteAt a = Config.writtenByte a n)

/-- R66: with a private operand a form's outcome does not depend on the oracle: from a state whose draws and whose
record of the writes seen are others it completes with the same registers. -/
def Obligations.PrivateOperandNeedsNoOracle : Prop :=
  ∀ (i : Instr) (s t : State) (d : Nat) (q : Seen), s.PrivateOperand i.vecLen i.operands → exec i s = .next t →
    ∃ u, exec i { s with seen := q, draws := d } = .next u ∧ u.k = t.k ∧ u.rip = t.rip

/-- R34, R209: a form that completes does so at every privilege level with the same result, where no region of the
launch memory depends on the level. -/
def Obligations.PrivilegeDoesNotMatter : Prop :=
  ∀ (i : Instr) (s t : State) (c : BitVec 2), (∀ r ∈ s.map, r.access ≠ .supervisor) → exec i s = .next t →
    exec i { s with cpl := c } = .next { t with cpl := c }

/-! ### The step, the launch state and the end of a run (70_reset_and_hazards.md) -/

/-- R146: in 64-bit mode, with a code region the spec allows and RIP at an instruction of the program, a step decodes the
bytes at RIP and is exec of that instruction at that state, with nothing around it. -/
def Obligations.StepRunsTheDecodedInstr : Prop :=
  ∀ (s : State) (i : Instr) (rest : List Byte), s.mode64 = true → s.codeRegionOk = true →
    s.atProgramPoint = true → s.atEnd = false → decode (s.code.drop s.ripOffset) = .instr i rest →
    step s = exec i s

/-- R234, R27: a step with RIP away from the program's instructions, at its end, or with a code region that leaves
canonical space, is refused by its own name; at the end the run is over. RIP is at such a point exactly when its offset
is the sum of the lengths of the first few instructions decoded from the start of the code; it is at the end when that
offset is the code's length; and the region is allowed exactly when it does not wrap and every address of it, the end
included, is canonical and in the same half (log entries 20 and 21 say how R234 and R27 are read here). -/
def Obligations.StepOutsideTheProgram : Prop :=
  (∀ s : State, s.mode64 = true →
    if s.codeRegionOk = false then step s = .refused .codeRegion
    else if s.atProgramPoint = false then step s = .refused .ripOutsideProgram
    else s.atEnd = true → step s = .refused .endOfRun) ∧
  (∀ s : State, s.atProgramPoint = true ↔
    ∃ is rest, DecodesTo s.code is rest ∧ (s.rip - s.codeBase).toNat = (is.map Instr.length).sum) ∧
  (∀ s : State, s.atEnd = true ↔ (s.rip - s.codeBase).toNat = s.code.length) ∧
  ∀ s : State, s.codeRegionOk = true ↔
    s.codeBase.toNat + s.code.length < 2 ^ 64 ∧
      ∀ i ≤ s.code.length, isCanonical s.cfg.vaBits (s.codeBase + BitVec.ofNat 64 i) = true ∧
        (s.codeBase + BitVec.ofNat 64 i).getLsbD 63 = s.codeBase.getLsbD 63

/-- R120, R194, R83: at an encoding that is invalid as a whole a step raises #UD, whatever CR0.TS and the enabling state
are; at one longer than 15 bytes, #GP(0); at another instruction it is refused by name. -/
def Obligations.StepAtOtherBytes : Prop :=
  ∀ s : State, s.fetchRefusal = none →
    (∀ why, s.fetch = .invalid why →
      step s = .fault (.raised { vector := 6, errorCode := none, cr2 := none, rip := s.rip })) ∧
    (s.fetch = .tooLong →
      step s = .fault (.raised { vector := 13, errorCode := some 0#32, cr2 := none, rip := s.rip })) ∧
    (∀ why, s.fetch = .refused why → step s = .refused (.notThisFamily why))

/-- R234: RIP only takes the values codeBase + (sum of the first lengths): from every state that meets the launch
premises with RIP at such a point, a step leads to another such state; the premises stay too, because no instruction
in scope changes what they rest on, and so do the forms the state's data keep (memory and the writes seen canonical,
mask registers of MAX_KL bits). -/
def Obligations.StepKeepsLaunchPremises : Prop :=
  ∀ s t : State, s.LaunchOk → step s = .next t → t.LaunchOk

/-- R27, R234: a step that completes moves RIP past exactly the instruction it fetched, inside the code region. -/
def Obligations.StepAdvancesByLength : Prop :=
  ∀ s t : State, step s = .next t →
    ∃ i rest, s.fetch = .instr i rest ∧ t.rip = s.rip + BitVec.ofNat 64 i.length ∧
      t.ripOffset = s.ripOffset + i.length ∧ t.ripOffset ≤ s.code.length

/-- R231, R232: the state a run starts from, whose values are the model's choice (log entries 1 to 6), meets the launch
premises, makes every form ready, and, with no program loaded, is final. -/
def Obligations.ResetIsALaunchState : Prop :=
  State.reset.LaunchOk ∧ (∀ vl, State.reset.Ready vl) ∧ State.reset.Final ∧ State.reset.rip = State.reset.codeBase

/-- Log entries 1 to 6, 12 and 30: the values the model names for the launch state (DESIGN CHOICE and PRESUMED; R38's
table where it gives one, while R231 leaves every register arbitrary): the register files, the enabling state, the
level, the configuration with MAX_KL = 64 (D2), the launch memory and its contents, no program, no draw made. -/
def Obligations.ResetValues : Prop :=
  (∀ n, State.reset.zmmReg n = 0#512) ∧ (∀ n, State.reset.kReg n = 0) ∧
  (∀ n, State.reset.gprReg n = 0#64) ∧ State.reset.rip = 0xFFF0#64 ∧ State.reset.fsBase = 0#64 ∧
  State.reset.gsBase = 0#64 ∧ State.reset.rflags = 2#64 ∧ State.reset.mxcsr = 0x1F80#32 ∧
  State.reset.cr0 = 0xE0000011#64 ∧ State.reset.cr4 = 0x40000#64 ∧ State.reset.xcr0 = 0xE7#64 ∧
  State.reset.efer = 0x400#64 ∧ State.reset.csL = true ∧ State.reset.cpl = 0#2 ∧
  State.reset.cfg.cpuid7Ebx = 0xC0010000#32 ∧ State.reset.cfg.vaBits = .bits48 ∧
  State.reset.cfg.faultSuppression = false ∧ State.reset.cfg.maxKl = 64 ∧
  (∀ a, State.reset.answer a = .ok ∧ State.reset.sharedAt a = false) ∧ (∀ a, State.reset.mem.read a = 0#8) ∧
  State.reset.code = [] ∧ State.reset.codeBase = State.reset.rip ∧ (∀ a, State.reset.seenAt a = 0) ∧
  State.reset.draws = 0

/-! ### Pseudo-ops and intrinsics (43_pseudo_ops_and_intrinsics.md) -/

/-- R172: six pseudo-ops, none for FALSE and TRUE, with the names and the immediates of its table; each expands to the form
with that immediate, which selects its predicate, and with every other operand in place. -/
def Obligations.PseudoOpsExpand : Prop :=
  ∀ (sg : Signedness) (vl : VecLen) (p : Predicate) (o : Operands),
    (pseudoExpand sg vl p o = none ↔ p = .never ∨ p = .always) ∧
    (pseudoName sg p = none ↔ p = .never ∨ p = .always) ∧
    (∀ row ∈ [(Predicate.eq, 0#8, "VPCMPEQW", "VPCMPEQUW"), (.lt, 1#8, "VPCMPLTW", "VPCMPLTUW"),
        (.le, 2#8, "VPCMPLEW", "VPCMPLEUW"), (.neq, 4#8, "VPCMPNEQW", "VPCMPNEQUW"),
        (.nlt, 5#8, "VPCMPNLTW", "VPCMPNLTUW"), (.nle, 6#8, "VPCMPNLEW", "VPCMPNLEUW")],
      pseudoExpand sg vl row.1 o = some (.ofForm sg vl { o with imm8 := row.2.1 }) ∧
      pseudoName .signed row.1 = some row.2.2.1 ∧ pseudoName .unsigned row.1 = some row.2.2.2) ∧
    ∀ i, pseudoExpand sg vl p o = some i →
      i.signedness = sg ∧ i.vecLen = vl ∧ predicateOf (predicateBits i.operands.imm8) = p ∧
        i.operands = { o with imm8 := i.operands.imm8 }

/-- R174: an intrinsic's value, in a type of exactly KL bits, loses nothing of DEST. -/
def Obligations.IntrinsicsReturnDest : Prop :=
  ∀ (sg : Signedness) (vl : VecLen) (m : Option (BitVec vl.lanes)) (a b : Vec) (cmp : BitVec 8),
    (intrinsicMask sg vl m a b cmp).toNat =
      vpcmp sg vl (predicateBits (cmp &&& 7#8)) a b (m.map fun v => v.toNat)
end

