-- ==== Sys2Proof/Laws/Memory.lean ====
section
/-! SUPPORT. Memory: read after write, the canonical form, and the bytes of a wide read. -/

namespace Sys2Proof.Machine

/-! ### Cells -/

section Cells

variable {α : Type} [DecidableEq α] {d : α}

theorem cellsWf_mono {lo lo' : Nat} {m : List (Nat × α)} (h : cellsWf d lo' m = true) (hl : lo ≤ lo') :
    cellsWf d lo m = true := by
  cases m with
  | nil => rfl
  | cons c t =>
    obtain ⟨k, b⟩ := c
    simp only [cellsWf, Bool.and_eq_true, decide_eq_true_eq] at h ⊢
    exact ⟨⟨⟨by omega, h.1.1.2⟩, h.1.2⟩, h.2⟩

/-- Below its least address canonical memory lists nothing. -/
theorem cellsRead_below {lo : Nat} {m : List (Nat × α)} (h : cellsWf d lo m = true) {a : Nat} (ha : a < lo) :
    cellsRead d m a = d := by
  induction m generalizing lo with
  | nil => rfl
  | cons c t ih =>
    obtain ⟨k, b⟩ := c
    simp only [cellsWf, Bool.and_eq_true, decide_eq_true_eq] at h
    have hk : k ≠ a := by omega
    simp only [cellsRead, if_neg hk]
    exact ih h.2 (by omega)

/-- Reading after a put: the byte put at its address, the old byte everywhere else. -/
theorem cellsRead_put {lo : Nat} {m : List (Nat × α)} (h : cellsWf d lo m = true) (a : Nat) (v : α) (x : Nat) :
    cellsRead d (cellsPut d m a v) x = if x = a then v else cellsRead d m x := by
  induction m generalizing lo with
  | nil =>
    simp only [cellsPut]
    split
    · rename_i hv
      rw [hv]
      exact (ite_self _).symm
    · by_cases hx : x = a
      · rw [if_pos hx, hx]
        simp [cellsRead]
      · have hx' : ¬a = x := fun e => hx e.symm
        simp [cellsRead, hx, hx']
  | cons c t ih =>
    obtain ⟨k, b⟩ := c
    have hw := h
    simp only [cellsWf, Bool.and_eq_true, decide_eq_true_eq] at h
    simp only [cellsPut]
    split
    · rename_i hak
      split
      · rename_i hv
        by_cases hx : x = a
        · subst hx
          rw [if_pos rfl, hv]
          exact cellsRead_below (lo := k)
            (by simp only [cellsWf, Bool.and_eq_true, decide_eq_true_eq]
                exact ⟨⟨⟨le_refl k, h.1.1.2⟩, h.1.2⟩, h.2⟩) hak
        · rw [if_neg hx]
      · by_cases hx : x = a
        · subst hx
          simp [cellsRead]
        · have hx' : ¬a = x := fun e => hx e.symm
          rw [if_neg hx]
          simp [cellsRead, hx']
    · split
      · rename_i hak
        subst hak
        split
        · rename_i hv
          by_cases hx : x = a
          · subst hx
            rw [if_pos rfl, hv]
            exact cellsRead_below h.2 (Nat.lt_succ_self x)
          · have hx' : ¬a = x := fun e => hx e.symm
            simp [cellsRead, hx, hx']
        · by_cases hx : x = a
          · subst hx
            simp [cellsRead]
          · have hx' : ¬a = x := fun e => hx e.symm
            simp [cellsRead, hx, hx']
      · rename_i hak hka
        by_cases hkx : k = x
        · have hx : ¬x = a := fun e => hka (by omega)
          simp [cellsRead, hkx, hx]
        · simp only [cellsRead, if_neg hkx]
          exact ih h.2

/-- A put keeps the canonical form. -/
theorem cellsPut_wf {lo : Nat} {m : List (Nat × α)} (h : cellsWf d lo m = true) {a : Nat} (hlo : lo ≤ a)
    (ha : a < 2 ^ 64) (v : α) : cellsWf d lo (cellsPut d m a v) = true := by
  induction m generalizing lo with
  | nil =>
    by_cases hv : v = d
    · simp [cellsPut, hv, cellsWf]
    · simp only [cellsPut, if_neg hv, cellsWf, Bool.and_eq_true, decide_eq_true_eq, Bool.not_eq_true', decide_eq_false_iff_not]
      exact ⟨⟨⟨hlo, ha⟩, hv⟩, trivial⟩
  | cons c t ih =>
    obtain ⟨k, b⟩ := c
    have hw := h
    simp only [cellsWf, Bool.and_eq_true, decide_eq_true_eq] at h
    obtain ⟨⟨⟨h1, h2⟩, h3⟩, h4⟩ := h
    simp only [cellsPut]
    split
    · rename_i hak
      split
      · exact hw
      · rename_i hv
        simp only [cellsWf, Bool.and_eq_true, decide_eq_true_eq, Bool.not_eq_true', decide_eq_false_iff_not] at h3 ⊢
        exact ⟨⟨⟨hlo, ha⟩, hv⟩, ⟨⟨⟨by omega, h2⟩, h3⟩, h4⟩⟩
    · split
      · rename_i hak
        subst hak
        split
        · exact cellsWf_mono h4 (by omega)
        · rename_i hv
          simp only [cellsWf, Bool.and_eq_true, decide_eq_true_eq, Bool.not_eq_true', decide_eq_false_iff_not]
          exact ⟨⟨⟨h1, h2⟩, hv⟩, h4⟩
      · simp only [cellsWf, Bool.and_eq_true, decide_eq_true_eq]
        exact ⟨⟨⟨h1, h2⟩, h3⟩, ih h4 (by omega)⟩

end Cells

/-! ### Memory contents -/

/-- A byte write keeps the canonical form. -/
theorem Memory.write_wf {m : Memory} (h : m.wf = true) (a : Addr) (v : Byte) : (m.write a v).wf = true :=
  cellsPut_wf h (Nat.zero_le _) a.isLt v

/-- Reading after a byte write: the byte written at its address, the old byte everywhere else. -/
theorem Memory.read_write {m : Memory} (h : m.wf = true) (a : Addr) (v : Byte) (x : Nat) :
    (m.write a v).read x = if x = a.toNat then v else m.read x := cellsRead_put h a.toNat v x

/-- A write of several bytes keeps the canonical form. -/
theorem Memory.writeBytes_wf {m : Memory} (h : m.wf = true) (a : Addr) (bs : List Byte) :
    (m.writeBytes a bs).wf = true := by
  induction bs generalizing m a with
  | nil => exact h
  | cons b t ih => exact ih (Memory.write_wf h a b) _

theorem State.reset_mem_wf : State.reset.mem.wf = true := rfl

/-- The bits of bytes joined least significant first (R52). -/
theorem bytesLE_getLsbD (bs : List Byte) (i : Nat) :
    (bytesLE bs).getLsbD i = (decide (i < 512) && (bs.getD (i / 8) 0#8).getLsbD (i % 8)) := by
  induction bs generalizing i with
  | nil => simp [bytesLE]
  | cons b t ih =>
    simp only [bytesLE, BitVec.getLsbD_or, BitVec.getLsbD_shiftLeft, BitVec.getLsbD_setWidth]
    rcases Nat.lt_or_ge i 8 with hi | hi
    · have h8 : i / 8 = 0 := by omega
      have h9 : i % 8 = i := by omega
      have : i < 512 := by omega
      simp [h8, h9, hi, this]
    · have h8 : i / 8 = (i - 8) / 8 + 1 := by omega
      have h9 : i % 8 = (i - 8) % 8 := by omega
      have hb : b.getLsbD i = false := BitVec.getLsbD_of_ge _ _ hi
      have hn : ¬i < 8 := by omega
      rw [ih, hb, h8, h9]
      by_cases h5 : i < 512
      · have h6 : i - 8 < 512 := by omega
        simp [h5, h6, hn]
      · simp [h5]

/-- Byte `i` of a wide read is the byte at la + i (R52). -/
theorem State.memRead_getLsbD (s : State) (la : Addr) (n i : Nat) (hi : i < 8 * n) (h5 : i < 512) :
    (s.memRead la n).getLsbD i = (s.byteAt (byteAddr la (i / 8))).getLsbD (i % 8) := by
  have hl : i / 8 < n := by omega
  rw [State.memRead, bytesLE_getLsbD, List.getD_eq_getElem?_getD, List.getElem?_map, List.getElem?_range hl]
  simp [h5]

/-! ### What the operand's address, its checks and its bytes depend on -/

theorem State.sharedAt_congr {s u : State} (hmap : u.map = s.map) (a : Addr) : u.sharedAt a = s.sharedAt a := by
  have h : u.regionAt a = s.regionAt a := by simp only [State.regionAt, hmap]
  unfold State.sharedAt
  rw [h]

/-- A byte read depends on the map, the contents and what records the reads of other agents' writes (R65, R66). -/
theorem State.byteAt_congr {s u : State} (hmap : u.map = s.map) (hmem : u.mem = s.mem) (hs : u.seen = s.seen)
    (hd : u.draws = s.draws) (a : Addr) : u.byteAt a = s.byteAt a := by
  have h1 : u.placeAt a = s.placeAt a := by simp only [State.placeAt, State.seenAt, hs, hd]
  have h2 : ∀ n, u.valueAt a n = s.valueAt a n := fun n => by cases n <;> simp only [State.valueAt, hmem]
  simp only [State.byteAt, State.sharedAt_congr hmap, hmem, h1, h2]

theorem State.memRead_congr {s u : State} (hmap : u.map = s.map) (hmem : u.mem = s.mem) (hs : u.seen = s.seen)
    (hd : u.draws = s.draws) (la : Addr) (n : Nat) : u.memRead la n = s.memRead la n := by
  simp only [State.memRead, State.byteAt_congr hmap hmem hs hd]

/-- A private byte is the launch contents (R66). -/
theorem State.byteAt_private {s : State} {a : Addr} (h : s.sharedAt a = false) : s.byteAt a = s.mem.read a.toNat := by
  simp [State.byteAt, h]

/-! ### The writes of others that reads have seen (R65) -/

/-- The writes seen keep their canonical form. -/
theorem State.seenAfter_wf {s : State} (h : s.seen.wf = true) (la : Addr) (n : Nat) :
    Seen.wf (s.seenAfter la n) = true := by
  induction n with
  | zero => exact h
  | succ n ih =>
    rw [State.seenAfter]
    split
    · exact cellsPut_wf ih (Nat.zero_le _) (byteAddr la n).isLt _
    · exact ih

/-- After a read each shared byte's place is the one the read found; every other address keeps its place. -/
theorem State.observe_seenAt {s : State} (h : s.seen.wf = true) (la a : Addr) (n : Nat) :
    (s.observe la n).seenAt a =
      if s.sharedAt a = true ∧ ∃ i < n, a = byteAddr la i then s.placeAt a else s.seenAt a := by
  show cellsRead 0 (s.seenAfter la n) a.toNat = _
  induction n with
  | zero => simp [State.seenAfter, State.seenAt]
  | succ n ih =>
    have hx : (∃ i < n + 1, a = byteAddr la i) ↔ (∃ i < n, a = byteAddr la i) ∨ a = byteAddr la n := by
      constructor
      · rintro ⟨i, hi, rfl⟩
        by_cases e : i = n
        · exact .inr (by rw [e])
        · exact .inl ⟨i, by omega, rfl⟩
      · rintro (⟨i, hi, rfl⟩ | rfl)
        · exact ⟨i, by omega, rfl⟩
        · exact ⟨n, by omega, rfl⟩
    rw [State.seenAfter]
    by_cases ha : a = byteAddr la n
    · by_cases hs : s.sharedAt (byteAddr la n) = true
      · rw [if_pos hs, cellsRead_put (s.seenAfter_wf h la n), if_pos (by rw [ha]),
          if_pos ⟨by rw [ha]; exact hs, hx.2 (.inr ha)⟩, ha]
      · rw [if_neg hs, ih, if_neg (fun c => hs (ha ▸ c.1)), if_neg (fun c => hs (ha ▸ c.1))]
    · have hne : ¬a.toNat = (byteAddr la n).toNat := fun e => ha (BitVec.eq_of_toNat_eq e)
      have he : (∃ i < n + 1, a = byteAddr la i) ↔ ∃ i < n, a = byteAddr la i :=
        hx.trans ⟨fun c => c.resolve_right ha, .inl⟩
      rw [if_congr (and_congr_right fun _ => he) rfl rfl, ← ih]
      split
      · rw [cellsRead_put (s.seenAfter_wf h la n), if_neg hne]
      · rfl

/-- What a read remembers depends on the map and on what records the reads of other agents' writes. -/
theorem State.seenAfter_congr {s u : State} (hmap : u.map = s.map) (hs : u.seen = s.seen) (hd : u.draws = s.draws)
    (la : Addr) (n : Nat) : u.seenAfter la n = s.seenAfter la n := by
  have h1 : ∀ a, u.placeAt a = s.placeAt a := fun a => by simp only [State.placeAt, State.seenAt, hs, hd]
  induction n with
  | zero => exact hs
  | succ n ih => simp only [State.seenAfter, State.sharedAt_congr hmap, h1, ih]

/-- A private range reads as the launch contents, whatever the draw counter is (R66). -/
theorem State.memRead_private {s u : State} (hmap : u.map = s.map) (hmem : u.mem = s.mem) {la : Addr} {n : Nat}
    (h : ∀ i < n, s.sharedAt (byteAddr la i) = false) : u.memRead la n = s.memRead la n := by
  simp only [State.memRead]
  congr 1
  apply List.map_congr_left
  intro i hi
  have := h i (List.mem_range.1 hi)
  simp only [State.byteAt, State.sharedAt_congr hmap, this, hmem, Bool.false_eq_true, if_false]

/-- The linear address depends on the general registers, RIP and the segment bases only (R108, R109). -/
theorem State.linearAddress_congr {s u : State} (hg : u.gpr = s.gpr) (hr : u.rip = s.rip) (hf : u.fsBase = s.fsBase)
    (hgs : u.gsBase = s.gsBase) (vl : VecLen) (o : Operands) (m : MemOperand) :
    u.linearAddress vl o m = s.linearAddress vl o m := by
  have h1 : u.segBase o.pre.seg = s.segBase o.pre.seg := by
    cases o.pre.seg with
    | none => rfl
    | some g => cases g <;> simp only [State.segBase, hf, hgs]
  have h2 : u.baseValue (u.nextRip o) m = s.baseValue (s.nextRip o) m := by
    cases m <;> simp only [State.baseValue, State.gprReg, State.nextRip, hg, hr]
  have h3 : u.indexPart m = s.indexPart m := by
    cases m <;> simp only [State.indexPart, State.indexValue, State.gprReg, hg]
  simp only [State.linearAddress, State.effectiveAddress, h1, h2, h3]

/-- The bytes that count depend on the configuration and on the active lanes only (R60, R199). -/
theorem State.countedBytes_congr {s u : State} {vl : VecLen} {mask : BitVec 3} {la : Addr} (hcfg : u.cfg = s.cfg)
    (hm : ∀ j < vl.lanes, laneActive (u.maskOperand mask) j = laneActive (s.maskOperand mask) j) :
    u.countedBytes vl mask la = s.countedBytes vl mask la := by
  simp only [State.countedBytes, State.countedOffsets, hcfg]
  split
  · congr 1
    apply List.filter_congr
    intro i hi
    simp only [List.mem_range] at hi
    apply hm
    cases vl <;> simp only [VecLen.bytes, VecLen.lanes] at hi ⊢ <;> omega
  · rfl

end Sys2Proof.Machine
end

