-- ==== Sys2Proof/Laws/State.lean ====
section
/-! SUPPORT. One lemma per field per update of the state, and what the updates do to the register reads. -/

namespace Sys2Proof.Machine

/-! ### setK -/

@[simp] theorem State.setK_zmm (s : State) (n : BitVec 3) (v : MaskVal) : (s.setK n v).zmm = s.zmm := rfl
@[simp] theorem State.setK_k (s : State) (n : BitVec 3) (v : MaskVal) :
    (s.setK n v).k = s.k.set n.toNat (v % 2 ^ s.cfg.maxKl) n.isLt := rfl
@[simp] theorem State.setK_gpr (s : State) (n : BitVec 3) (v : MaskVal) : (s.setK n v).gpr = s.gpr := rfl
@[simp] theorem State.setK_rip (s : State) (n : BitVec 3) (v : MaskVal) : (s.setK n v).rip = s.rip := rfl
@[simp] theorem State.setK_fsBase (s : State) (n : BitVec 3) (v : MaskVal) : (s.setK n v).fsBase = s.fsBase := rfl
@[simp] theorem State.setK_gsBase (s : State) (n : BitVec 3) (v : MaskVal) : (s.setK n v).gsBase = s.gsBase := rfl
@[simp] theorem State.setK_rflags (s : State) (n : BitVec 3) (v : MaskVal) : (s.setK n v).rflags = s.rflags := rfl
@[simp] theorem State.setK_mxcsr (s : State) (n : BitVec 3) (v : MaskVal) : (s.setK n v).mxcsr = s.mxcsr := rfl
@[simp] theorem State.setK_cr0 (s : State) (n : BitVec 3) (v : MaskVal) : (s.setK n v).cr0 = s.cr0 := rfl
@[simp] theorem State.setK_cr4 (s : State) (n : BitVec 3) (v : MaskVal) : (s.setK n v).cr4 = s.cr4 := rfl
@[simp] theorem State.setK_xcr0 (s : State) (n : BitVec 3) (v : MaskVal) : (s.setK n v).xcr0 = s.xcr0 := rfl
@[simp] theorem State.setK_efer (s : State) (n : BitVec 3) (v : MaskVal) : (s.setK n v).efer = s.efer := rfl
@[simp] theorem State.setK_csL (s : State) (n : BitVec 3) (v : MaskVal) : (s.setK n v).csL = s.csL := rfl
@[simp] theorem State.setK_cpl (s : State) (n : BitVec 3) (v : MaskVal) : (s.setK n v).cpl = s.cpl := rfl
@[simp] theorem State.setK_cfg (s : State) (n : BitVec 3) (v : MaskVal) : (s.setK n v).cfg = s.cfg := rfl
@[simp] theorem State.setK_map (s : State) (n : BitVec 3) (v : MaskVal) : (s.setK n v).map = s.map := rfl
@[simp] theorem State.setK_mem (s : State) (n : BitVec 3) (v : MaskVal) : (s.setK n v).mem = s.mem := rfl
@[simp] theorem State.setK_codeBase (s : State) (n : BitVec 3) (v : MaskVal) : (s.setK n v).codeBase = s.codeBase := rfl
@[simp] theorem State.setK_code (s : State) (n : BitVec 3) (v : MaskVal) : (s.setK n v).code = s.code := rfl
@[simp] theorem State.setK_seen (s : State) (n : BitVec 3) (v : MaskVal) : (s.setK n v).seen = s.seen := rfl
@[simp] theorem State.setK_draws (s : State) (n : BitVec 3) (v : MaskVal) : (s.setK n v).draws = s.draws := rfl

/-! ### setRip -/

@[simp] theorem State.setRip_zmm (s : State) (a : Addr) : (s.setRip a).zmm = s.zmm := rfl
@[simp] theorem State.setRip_k (s : State) (a : Addr) : (s.setRip a).k = s.k := rfl
@[simp] theorem State.setRip_gpr (s : State) (a : Addr) : (s.setRip a).gpr = s.gpr := rfl
@[simp] theorem State.setRip_rip (s : State) (a : Addr) : (s.setRip a).rip = a := rfl
@[simp] theorem State.setRip_fsBase (s : State) (a : Addr) : (s.setRip a).fsBase = s.fsBase := rfl
@[simp] theorem State.setRip_gsBase (s : State) (a : Addr) : (s.setRip a).gsBase = s.gsBase := rfl
@[simp] theorem State.setRip_rflags (s : State) (a : Addr) : (s.setRip a).rflags = s.rflags := rfl
@[simp] theorem State.setRip_mxcsr (s : State) (a : Addr) : (s.setRip a).mxcsr = s.mxcsr := rfl
@[simp] theorem State.setRip_cr0 (s : State) (a : Addr) : (s.setRip a).cr0 = s.cr0 := rfl
@[simp] theorem State.setRip_cr4 (s : State) (a : Addr) : (s.setRip a).cr4 = s.cr4 := rfl
@[simp] theorem State.setRip_xcr0 (s : State) (a : Addr) : (s.setRip a).xcr0 = s.xcr0 := rfl
@[simp] theorem State.setRip_efer (s : State) (a : Addr) : (s.setRip a).efer = s.efer := rfl
@[simp] theorem State.setRip_csL (s : State) (a : Addr) : (s.setRip a).csL = s.csL := rfl
@[simp] theorem State.setRip_cpl (s : State) (a : Addr) : (s.setRip a).cpl = s.cpl := rfl
@[simp] theorem State.setRip_cfg (s : State) (a : Addr) : (s.setRip a).cfg = s.cfg := rfl
@[simp] theorem State.setRip_map (s : State) (a : Addr) : (s.setRip a).map = s.map := rfl
@[simp] theorem State.setRip_mem (s : State) (a : Addr) : (s.setRip a).mem = s.mem := rfl
@[simp] theorem State.setRip_codeBase (s : State) (a : Addr) : (s.setRip a).codeBase = s.codeBase := rfl
@[simp] theorem State.setRip_code (s : State) (a : Addr) : (s.setRip a).code = s.code := rfl
@[simp] theorem State.setRip_seen (s : State) (a : Addr) : (s.setRip a).seen = s.seen := rfl
@[simp] theorem State.setRip_draws (s : State) (a : Addr) : (s.setRip a).draws = s.draws := rfl

/-! ### observe -/

@[simp] theorem State.observe_zmm (s : State) (la : Addr) (n : Nat) : (s.observe la n).zmm = s.zmm := rfl
@[simp] theorem State.observe_k (s : State) (la : Addr) (n : Nat) : (s.observe la n).k = s.k := rfl
@[simp] theorem State.observe_gpr (s : State) (la : Addr) (n : Nat) : (s.observe la n).gpr = s.gpr := rfl
@[simp] theorem State.observe_rip (s : State) (la : Addr) (n : Nat) : (s.observe la n).rip = s.rip := rfl
@[simp] theorem State.observe_fsBase (s : State) (la : Addr) (n : Nat) : (s.observe la n).fsBase = s.fsBase := rfl
@[simp] theorem State.observe_gsBase (s : State) (la : Addr) (n : Nat) : (s.observe la n).gsBase = s.gsBase := rfl
@[simp] theorem State.observe_rflags (s : State) (la : Addr) (n : Nat) : (s.observe la n).rflags = s.rflags := rfl
@[simp] theorem State.observe_mxcsr (s : State) (la : Addr) (n : Nat) : (s.observe la n).mxcsr = s.mxcsr := rfl
@[simp] theorem State.observe_cr0 (s : State) (la : Addr) (n : Nat) : (s.observe la n).cr0 = s.cr0 := rfl
@[simp] theorem State.observe_cr4 (s : State) (la : Addr) (n : Nat) : (s.observe la n).cr4 = s.cr4 := rfl
@[simp] theorem State.observe_xcr0 (s : State) (la : Addr) (n : Nat) : (s.observe la n).xcr0 = s.xcr0 := rfl
@[simp] theorem State.observe_efer (s : State) (la : Addr) (n : Nat) : (s.observe la n).efer = s.efer := rfl
@[simp] theorem State.observe_csL (s : State) (la : Addr) (n : Nat) : (s.observe la n).csL = s.csL := rfl
@[simp] theorem State.observe_cpl (s : State) (la : Addr) (n : Nat) : (s.observe la n).cpl = s.cpl := rfl
@[simp] theorem State.observe_cfg (s : State) (la : Addr) (n : Nat) : (s.observe la n).cfg = s.cfg := rfl
@[simp] theorem State.observe_map (s : State) (la : Addr) (n : Nat) : (s.observe la n).map = s.map := rfl
@[simp] theorem State.observe_mem (s : State) (la : Addr) (n : Nat) : (s.observe la n).mem = s.mem := rfl
@[simp] theorem State.observe_codeBase (s : State) (la : Addr) (n : Nat) : (s.observe la n).codeBase = s.codeBase := rfl
@[simp] theorem State.observe_code (s : State) (la : Addr) (n : Nat) : (s.observe la n).code = s.code := rfl
@[simp] theorem State.observe_seen (s : State) (la : Addr) (n : Nat) : (s.observe la n).seen = s.seenAfter la n := rfl
@[simp] theorem State.observe_draws (s : State) (la : Addr) (n : Nat) : (s.observe la n).draws = s.draws + 1 := rfl

/-! ### loadCode -/

@[simp] theorem State.loadCode_zmm (s : State) (bs : List Byte) : (s.loadCode bs).zmm = s.zmm := rfl
@[simp] theorem State.loadCode_k (s : State) (bs : List Byte) : (s.loadCode bs).k = s.k := rfl
@[simp] theorem State.loadCode_gpr (s : State) (bs : List Byte) : (s.loadCode bs).gpr = s.gpr := rfl
@[simp] theorem State.loadCode_rip (s : State) (bs : List Byte) : (s.loadCode bs).rip = s.rip := rfl
@[simp] theorem State.loadCode_fsBase (s : State) (bs : List Byte) : (s.loadCode bs).fsBase = s.fsBase := rfl
@[simp] theorem State.loadCode_gsBase (s : State) (bs : List Byte) : (s.loadCode bs).gsBase = s.gsBase := rfl
@[simp] theorem State.loadCode_rflags (s : State) (bs : List Byte) : (s.loadCode bs).rflags = s.rflags := rfl
@[simp] theorem State.loadCode_mxcsr (s : State) (bs : List Byte) : (s.loadCode bs).mxcsr = s.mxcsr := rfl
@[simp] theorem State.loadCode_cr0 (s : State) (bs : List Byte) : (s.loadCode bs).cr0 = s.cr0 := rfl
@[simp] theorem State.loadCode_cr4 (s : State) (bs : List Byte) : (s.loadCode bs).cr4 = s.cr4 := rfl
@[simp] theorem State.loadCode_xcr0 (s : State) (bs : List Byte) : (s.loadCode bs).xcr0 = s.xcr0 := rfl
@[simp] theorem State.loadCode_efer (s : State) (bs : List Byte) : (s.loadCode bs).efer = s.efer := rfl
@[simp] theorem State.loadCode_csL (s : State) (bs : List Byte) : (s.loadCode bs).csL = s.csL := rfl
@[simp] theorem State.loadCode_cpl (s : State) (bs : List Byte) : (s.loadCode bs).cpl = s.cpl := rfl
@[simp] theorem State.loadCode_cfg (s : State) (bs : List Byte) : (s.loadCode bs).cfg = s.cfg := rfl
@[simp] theorem State.loadCode_map (s : State) (bs : List Byte) : (s.loadCode bs).map = s.map := rfl
@[simp] theorem State.loadCode_mem (s : State) (bs : List Byte) : (s.loadCode bs).mem = s.mem := rfl
@[simp] theorem State.loadCode_codeBase (s : State) (bs : List Byte) : (s.loadCode bs).codeBase = s.rip := rfl
@[simp] theorem State.loadCode_code (s : State) (bs : List Byte) : (s.loadCode bs).code = bs := rfl
@[simp] theorem State.loadCode_seen (s : State) (bs : List Byte) : (s.loadCode bs).seen = s.seen := rfl
@[simp] theorem State.loadCode_draws (s : State) (bs : List Byte) : (s.loadCode bs).draws = s.draws := rfl

/-! ### Register reads after an update -/

@[simp] theorem State.setRip_kReg (s : State) (a : Addr) (n : BitVec 3) : (s.setRip a).kReg n = s.kReg n := rfl
@[simp] theorem State.observe_kReg (s : State) (la : Addr) (m : Nat) (n : BitVec 3) :
    (s.observe la m).kReg n = s.kReg n := rfl

@[simp] theorem State.setK_kReg_same (s : State) (n : BitVec 3) (v : MaskVal) :
    (s.setK n v).kReg n = v % 2 ^ s.cfg.maxKl := by
  simp [State.kReg, State.setK]

theorem State.setK_kReg_other (s : State) {n m : BitVec 3} (v : MaskVal) (h : n ≠ m) :
    (s.setK n v).kReg m = s.kReg m := by
  have : n.toNat ≠ m.toNat := fun e => h (BitVec.eq_of_toNat_eq e)
  simp [State.kReg, State.setK, Vector.getElem_set_ne, this]

@[simp] theorem State.setK_setK (s : State) (n : BitVec 3) (v w : MaskVal) : (s.setK n v).setK n w = s.setK n w := by
  simp [State.setK]

theorem State.setK_self (s : State) (n : BitVec 3) (h : s.kReg n < 2 ^ s.cfg.maxKl) : s.setK n (s.kReg n) = s := by
  rw [State.setK, Nat.mod_eq_of_lt h]
  simp [State.kReg]

/-- Writing a register keeps every register's width (R23). -/
theorem State.setK_masks {s : State} (h : ∀ m, s.kReg m < 2 ^ s.cfg.maxKl) (n : BitVec 3) (v : MaskVal) (m : BitVec 3) :
    (s.setK n v).kReg m < 2 ^ (s.setK n v).cfg.maxKl := by
  by_cases e : n = m
  · subst e
    rw [State.setK_kReg_same]
    exact Nat.mod_lt _ (Nat.two_pow_pos _)
  · rw [State.setK_kReg_other s v e]
    exact h m

/-! ### The state after a completed form -/

@[simp] theorem State.complete_kReg_dest (t : State) (o : Operands) (r : MaskVal) :
    (t.complete o r).kReg o.dest = r % 2 ^ t.cfg.maxKl := by
  simp [State.complete]

theorem State.complete_kReg_other (t : State) (o : Operands) (r : MaskVal) {n : BitVec 3} (h : o.dest ≠ n) :
    (t.complete o r).kReg n = t.kReg n := by
  simp [State.complete, State.setK_kReg_other _ _ h]

@[simp] theorem State.complete_rip (t : State) (o : Operands) (r : MaskVal) :
    (t.complete o r).rip = t.rip + BitVec.ofNat 64 o.length := rfl

@[simp] theorem State.complete_k (t : State) (o : Operands) (r : MaskVal) :
    (t.complete o r).k = t.k.set o.dest.toNat (r % 2 ^ t.cfg.maxKl) o.dest.isLt := rfl

@[simp] theorem State.complete_zmm (t : State) (o : Operands) (r : MaskVal) : (t.complete o r).zmm = t.zmm := rfl
@[simp] theorem State.complete_gpr (t : State) (o : Operands) (r : MaskVal) : (t.complete o r).gpr = t.gpr := rfl
@[simp] theorem State.complete_fsBase (t : State) (o : Operands) (r : MaskVal) : (t.complete o r).fsBase = t.fsBase := rfl
@[simp] theorem State.complete_gsBase (t : State) (o : Operands) (r : MaskVal) : (t.complete o r).gsBase = t.gsBase := rfl
@[simp] theorem State.complete_rflags (t : State) (o : Operands) (r : MaskVal) : (t.complete o r).rflags = t.rflags := rfl
@[simp] theorem State.complete_mxcsr (t : State) (o : Operands) (r : MaskVal) : (t.complete o r).mxcsr = t.mxcsr := rfl
@[simp] theorem State.complete_cr0 (t : State) (o : Operands) (r : MaskVal) : (t.complete o r).cr0 = t.cr0 := rfl
@[simp] theorem State.complete_cr4 (t : State) (o : Operands) (r : MaskVal) : (t.complete o r).cr4 = t.cr4 := rfl
@[simp] theorem State.complete_xcr0 (t : State) (o : Operands) (r : MaskVal) : (t.complete o r).xcr0 = t.xcr0 := rfl
@[simp] theorem State.complete_efer (t : State) (o : Operands) (r : MaskVal) : (t.complete o r).efer = t.efer := rfl
@[simp] theorem State.complete_csL (t : State) (o : Operands) (r : MaskVal) : (t.complete o r).csL = t.csL := rfl
@[simp] theorem State.complete_cpl (t : State) (o : Operands) (r : MaskVal) : (t.complete o r).cpl = t.cpl := rfl
@[simp] theorem State.complete_cfg (t : State) (o : Operands) (r : MaskVal) : (t.complete o r).cfg = t.cfg := rfl
@[simp] theorem State.complete_map (t : State) (o : Operands) (r : MaskVal) : (t.complete o r).map = t.map := rfl
@[simp] theorem State.complete_mem (t : State) (o : Operands) (r : MaskVal) : (t.complete o r).mem = t.mem := rfl
@[simp] theorem State.complete_codeBase (t : State) (o : Operands) (r : MaskVal) : (t.complete o r).codeBase = t.codeBase := rfl
@[simp] theorem State.complete_code (t : State) (o : Operands) (r : MaskVal) : (t.complete o r).code = t.code := rfl
@[simp] theorem State.complete_seen (t : State) (o : Operands) (r : MaskVal) : (t.complete o r).seen = t.seen := rfl
@[simp] theorem State.complete_draws (t : State) (o : Operands) (r : MaskVal) : (t.complete o r).draws = t.draws := rfl

end Sys2Proof.Machine
end

