-- ==== Sys2Proof/Laws/Compare.lean ====
section
/-! SUPPORT. What the comparison computes bit by bit, what reading the second source can answer, and what a form can
do: the lemmas later proofs cite instead of unfolding the meanings. -/

namespace Sys2Proof.Machine

/-! ### Lanes and the comparison -/

theorem VecLen.lanes_le (vl : VecLen) : vl.lanes ≤ 32 := by cases vl <;> decide

theorem VecLen.lanes_le_maxKl (vl : VecLen) (c : Config) : vl.lanes ≤ c.maxKl := 
  Nat.le_trans (VecLen.lanes_le vl) c.maxKl_ge

theorem VecLen.bytes_eq (vl : VecLen) : vl.bytes = 2 * vl.lanes := by cases vl <;> rfl

theorem VecLen.bits_eq (vl : VecLen) : vl.bits = 16 * vl.lanes := by cases vl <;> rfl

theorem collectLanes_testBit (f : Nat → Bool) (n j : Nat) :
    (collectLanes f n).testBit j = (decide (j < n) && f j) := by
  induction n with
  | zero => simp [collectLanes]
  | succ n ih =>
    simp only [collectLanes, Nat.testBit_or, ih]
    by_cases hn : n = j
    · subst hn
      cases hf : f n <;> simp
    · have hlt : (j < n + 1) ↔ (j < n) := by omega
      have hb : (if f n = true then 2 ^ n else 0).testBit j = false := by
        split <;> simp [hn]
      simp [hb, hlt]

/-- Bit j of the result (R135 to R137). -/
theorem vpcmp_testBit (sg : Signedness) (vl : VecLen) (p : BitVec 3) (s1 s2 : Vec) (m : Option MaskVal) (j : Nat) :
    (vpcmp sg vl p s1 s2 m).testBit j =
      (decide (j < vl.lanes) && (laneActive m j && laneTrue sg p s1 s2 j)) := by
  rw [vpcmp, collectLanes_testBit]

/-- The result has KL bits (R137). -/
theorem vpcmp_lt (sg : Signedness) (vl : VecLen) (p : BitVec 3) (s1 s2 : Vec) (m : Option MaskVal) :
    vpcmp sg vl p s1 s2 m < 2 ^ vl.lanes :=
  Nat.lt_pow_two_of_testBit _ fun j hj => by
    rw [vpcmp_testBit, decide_eq_false (Nat.not_lt.2 hj), Bool.false_and]

/-- The result fits a mask register of every part (R8). -/
theorem vpcmp_lt_maxKl (sg : Signedness) (vl : VecLen) (p : BitVec 3) (s1 s2 : Vec) (m : Option MaskVal) (c : Config) :
    vpcmp sg vl p s1 s2 m < 2 ^ c.maxKl :=
  Nat.lt_of_lt_of_le (vpcmp_lt sg vl p s1 s2 m) (Nat.pow_le_pow_right (by decide) (VecLen.lanes_le_maxKl vl c))

/-- DEST after a completed form holds the result, whole (R137). -/
@[simp] theorem State.complete_kReg_vpcmp (t : State) (o : Operands) (sg : Signedness) (vl : VecLen) (p : BitVec 3)
    (s1 s2 : Vec) (m : Option MaskVal) :
    (t.complete o (vpcmp sg vl p s1 s2 m)).kReg o.dest = vpcmp sg vl p s1 s2 m := by
  rw [State.complete_kReg_dest, Nat.mod_eq_of_lt (vpcmp_lt_maxKl sg vl p s1 s2 m _)]

theorem lane_getLsbD (v : Vec) (j i : Nat) :
    (lane v j).getLsbD i = (decide (i < 16) && v.getLsbD (16 * j + i)) := by
  simp [lane, BitVec.getLsbD_extractLsb']

/-- Lane j of a register operand is that of the whole register (R22). -/
theorem State.lane_readVec (s : State) (vl : VecLen) (n : BitVec 5) {j : Nat} (hj : j < vl.lanes) :
    lane (s.readVec vl n) j = (s.zmmReg n).extractLsb' (16 * j) 16 := by
  apply BitVec.eq_of_getLsbD_eq
  intro i hi
  have h2 := VecLen.lanes_le vl
  have h3 := VecLen.bits_eq vl
  have h4 : 16 * j + i < vl.bits := by omega
  have h5 : 16 * j + i < 512 := by omega
  rw [lane_getLsbD]
  simp [State.readVec, hi, h4, h5]

/-- Lane j of a memory operand is the bytes at la+2j+1 and la+2j (R53). -/
theorem State.lane_memRead (s : State) (la : Addr) (n : Nat) {j : Nat} (hj : 2 * j + 1 < n) (h32 : j < 32) :
    lane (s.memRead la n) j =
      (s.byteAt (la + BitVec.ofNat 64 (2 * j + 1)) ++ s.byteAt (la + BitVec.ofNat 64 (2 * j)) : BitVec (8 + 8)) := by
  apply BitVec.eq_of_getLsbD_eq
  intro i hi
  rw [lane_getLsbD, State.memRead_getLsbD s la n _ (by omega) (by omega), BitVec.getLsbD_append]
  rcases Nat.lt_or_ge i 8 with h | h
  · have h1 : (16 * j + i) / 8 = 2 * j := by omega
    have h2 : (16 * j + i) % 8 = i := by omega
    rw [h1, h2]
    simp [byteAddr, hi, h]
  · have h1 : (16 * j + i) / 8 = 2 * j + 1 := by omega
    have h2 : (16 * j + i) % 8 = i - 8 := by omega
    have h3 : ¬i < 8 := by omega
    rw [h1, h2]
    simp [byteAddr, hi, h3]

theorem ones_testBit (vl : VecLen) (j : Nat) : (ones vl).testBit j = decide (j < vl.lanes) := by
  rw [ones, Nat.testBit_two_pow_sub_one]

theorem activeOnes_testBit (vl : VecLen) (m : Option MaskVal) (j : Nat) :
    (activeOnes vl m).testBit j = (decide (j < vl.lanes) && laneActive m j) := by
  cases m <;> simp [activeOnes, laneActive, ones_testBit, Bool.and_comm]

/-- NOT in MAX_KL bits, bit by bit (R142). -/
theorem maskNot_testBit (n : Nat) (v : MaskVal) (j : Nat) :
    (maskNot n v).testBit j = (decide (j < n) && !v.testBit j) := by
  rw [maskNot, Nat.testBit_xor, Nat.testBit_mod_two_pow, Nat.testBit_two_pow_sub_one]
  cases decide (j < n) <;> cases v.testBit j <;> rfl

/-- A lane is active where there is no writemask or its bit is set (R136). -/
theorem State.laneActive_maskOperand (s : State) (mask : BitVec 3) (j : Nat) :
    laneActive (s.maskOperand mask) j = (mask == 0#3 || (s.kReg mask).testBit j) := by
  simp only [State.maskOperand]
  split <;> simp_all [laneActive]

/-- The comparison depends on the writemask through its active lanes only. -/
theorem vpcmp_congr {sg : Signedness} {vl : VecLen} {p : BitVec 3} {s1 s2 t1 t2 : Vec} {m n : Option MaskVal}
    (hm : ∀ j < vl.lanes, laneActive m j = laneActive n j) (h1 : ∀ j < vl.lanes, lane s1 j = lane t1 j)
    (h2 : ∀ j < vl.lanes, lane s2 j = lane t2 j) : vpcmp sg vl p s1 s2 m = vpcmp sg vl p t1 t2 n := by
  apply Nat.eq_of_testBit_eq
  intro j
  simp only [vpcmp_testBit, laneTrue]
  by_cases hj : j < vl.lanes
  · rw [hm j hj, h1 j hj, h2 j hj]
  · simp [hj]

/-! ### The checks -/

theorem fixedBitsWrong_eq (f : FixedBits) : fixedBitsWrong f = !f.legal := by
  rcases f with ⟨r, rHi, z, b⟩
  cases r <;> cases rHi <;> cases z <;> cases b <;> rfl

theorem State.mode64_of_evexEnabled {s : State} (h : s.evexEnabled = true) : s.mode64 = true := by
  simp only [State.evexEnabled, Bool.and_eq_true] at h
  exact h.2

theorem State.Ready.valid {s : State} {vl : VecLen} (h : s.Ready vl) {o : Operands} (hl : o.fixed.legal = true) :
    s.invalidOpcode vl o = false := by
  simp [State.invalidOpcode, fixedBitsWrong_eq, h.1, h.2.1, hl]

theorem State.pageFaultAt_none_of_ok {s : State} {a : Addr} (h : s.answer a = .ok) : s.pageFaultAt a = none := by
  simp [State.pageFaultAt, h]

/-- An operand is admitted exactly when it does not wrap and every byte that counts is readable. -/
theorem State.memoryCheck_eq_none (s : State) (vl : VecLen) (o : Operands) (m : MemOperand) :
    s.memoryCheck vl o m = none ↔ s.MemoryReadable vl o m := by
  simp only [State.memoryCheck, State.operandCheck, State.MemoryReadable]
  generalize s.countedBytes vl o.mask (s.linearAddress vl o m) = c
  constructor
  · intro h
    split at h
    · cases h
    · rename_i hc
      split at h
      · cases h
      · rename_i hw
        refine ⟨by omega, fun a ha => ⟨?_, ?_⟩⟩
        · simp only [List.any_eq_true, not_exists, not_and] at hc
          simpa using hc a ha
        · simp only [State.pagingCheck] at h
          split at h
          · cases h
          · rename_i h1
            split at h
            · cases h
            · rename_i h2
              simp only [List.any_eq_true, not_exists, not_and, beq_iff_eq] at h1 h2
              split at h
              · rename_i hf
                have := List.filterMap_eq_nil_iff.1 hf a ha
                cases he : s.answer a with
                | ok => rfl
                | pageFault code => simp [State.pageFaultAt, he] at this
                | device => exact absurd he (h2 a ha)
                | nothing => exact absurd he (h1 a ha)
              · cases h
  · rintro ⟨hw, hr⟩
    have h1 : ¬(c.any fun a => !isCanonical s.cfg.vaBits a) = true := by
      simp only [List.any_eq_true, not_exists, not_and]
      intro a ha
      simp [(hr a ha).1]
    have h2 : ¬(c.any fun a => s.answer a == .nothing) = true := by
      simp only [List.any_eq_true, not_exists, not_and]
      intro a ha
      simp [(hr a ha).2]
    have h3 : ¬(c.any fun a => s.answer a == .device) = true := by
      simp only [List.any_eq_true, not_exists, not_and]
      intro a ha
      simp [(hr a ha).2]
    have h4 : c.filterMap s.pageFaultAt = [] :=
      List.filterMap_eq_nil_iff.2 fun a ha => State.pageFaultAt_none_of_ok (hr a ha).2
    rw [if_neg h1, if_neg (by omega)]
    simp only [State.pagingCheck, if_neg h2, if_neg h3, h4]

/-- An element picked from a list that is not empty is one of it (R196, U6). -/
theorem pickFrom_mem {α : Type} (n : Nat) (x : α) (xs : List α) : pickFrom n x xs ∈ x :: xs := by
  have h : n % (xs.length + 1) < (x :: xs).length := Nat.mod_lt _ (Nat.succ_pos _)
  rw [pickFrom, List.getD_eq_getElem?_getD, List.getElem?_eq_getElem h]
  exact List.getElem_mem h

/-- What the paging check can answer (R63, R196). -/
theorem State.pagingCheck_some {s : State} {c : List Addr} {f : Fault} (h : s.pagingCheck c = some f) :
    (f = .stuckUnlisted ∧ ∃ a ∈ c, s.answer a = .nothing) ∨
    (f = .stuckDevice ∧ ∃ a ∈ c, s.answer a = .device) ∨
    (∃ a ∈ c, ∃ code, s.answer a = .pageFault code ∧ f = (Exception.pf code a).fault s) := by
  simp only [State.pagingCheck] at h
  split at h
  · rename_i h1
    simp only [List.any_eq_true, beq_iff_eq] at h1
    exact .inl ⟨by simpa using h.symm, h1⟩
  · split at h
    · rename_i h2
      simp only [List.any_eq_true, beq_iff_eq] at h2
      exact .inr (.inl ⟨by simpa using h.symm, h2⟩)
    · split at h
      · cases h
      · rename_i x xs hx
        have hm := pickFrom_mem (Config.faultDraw s.draws) x xs
        rw [← hx] at hm
        obtain ⟨a, ha, hp⟩ := List.mem_filterMap.1 hm
        refine .inr (.inr ⟨a, ha, ?_⟩)
        cases he : s.answer a with
        | ok => simp [State.pageFaultAt, he] at hp
        | device => simp [State.pageFaultAt, he] at hp
        | nothing => simp [State.pageFaultAt, he] at hp
        | pageFault code =>
          simp only [State.pageFaultAt, he, Option.some.injEq] at hp
          refine ⟨code, rfl, ?_⟩
          rw [← hp] at h
          exact (by simpa using h.symm)

/-- What the check of a memory operand can answer, in its order (R61 to R63, R196 to R199; log entry 10). -/
theorem State.memoryCheck_some {s : State} {vl : VecLen} {o : Operands} {m : MemOperand} {f : Fault}
    (h : s.memoryCheck vl o m = some f) :
    let c := s.countedBytes vl o.mask (s.linearAddress vl o m)
    ((∃ a ∈ c, isCanonical s.cfg.vaBits a = false) ∧
      f = (if segmentOf o.pre.seg m = .ss then Exception.ss else Exception.gp).fault s) ∨
    ((∀ a ∈ c, isCanonical s.cfg.vaBits a = true) ∧
      ((2 ^ 64 < (s.linearAddress vl o m).toNat + vl.bytes ∧ f = .stuckWrap) ∨
        ((s.linearAddress vl o m).toNat + vl.bytes ≤ 2 ^ 64 ∧ s.pagingCheck c = some f))) := by
  simp only [State.memoryCheck, State.operandCheck] at h
  split at h
  · rename_i hc
    simp only [List.any_eq_true, Bool.not_eq_true'] at hc
    exact .inl ⟨hc, by simpa using h.symm⟩
  · rename_i hc
    simp only [List.any_eq_true, Bool.not_eq_true', not_exists, not_and, Bool.not_eq_false] at hc
    refine .inr ⟨hc, ?_⟩
    split at h
    · rename_i hw
      exact .inl ⟨hw, by simpa using h.symm⟩
    · rename_i hw
      exact .inr ⟨by omega, h⟩

/-! ### Reading the second source -/

theorem State.readSource2_reg (s : State) (vl : VecLen) (o : Operands) {n : BitVec 5} (h : o.src2 = .reg n) :
    s.readSource2 vl o = .ok (s.readVec vl n, s) := by
  simp [State.readSource2, h]

theorem State.readSource2_mem (s : State) (vl : VecLen) (o : Operands) {m : MemOperand} (h : o.src2 = .mem m)
    (hr : s.MemoryReadable vl o m) :
    s.readSource2 vl o = .ok
      (s.memRead (s.linearAddress vl o m) vl.bytes, s.observe (s.linearAddress vl o m) vl.bytes) := by
  simp [State.readSource2, h, (s.memoryCheck_eq_none vl o m).2 hr]

/-- What reading the second source answers when it answers a value. -/
theorem State.readSource2_ok {s t : State} {vl : VecLen} {o : Operands} {v : Vec}
    (h : s.readSource2 vl o = .ok (v, t)) :
    (∃ n, o.src2 = .reg n ∧ v = s.readVec vl n ∧ t = s) ∨
    (∃ m, o.src2 = .mem m ∧ s.MemoryReadable vl o m ∧
      v = s.memRead (s.linearAddress vl o m) vl.bytes ∧
      t = s.observe (s.linearAddress vl o m) vl.bytes) := by
  unfold State.readSource2 at h
  cases hs : o.src2 with
  | reg n =>
    rw [hs] at h
    simp only [Except.ok.injEq, Prod.mk.injEq] at h
    exact .inl ⟨n, rfl, h.1.symm, h.2.symm⟩
  | mem m =>
    rw [hs] at h
    cases hc : s.memoryCheck vl o m with
    | some f => simp [hc] at h
    | none =>
      simp only [hc, Except.ok.injEq, Prod.mk.injEq] at h
      exact .inr ⟨m, rfl, (s.memoryCheck_eq_none vl o m).1 hc, h.1.symm, h.2.symm⟩

/-- Reading the second source fails for a memory operand only, as its check says. -/
theorem State.readSource2_error {s : State} {vl : VecLen} {o : Operands} {f : Fault}
    (h : s.readSource2 vl o = .error f) : ∃ m, o.src2 = .mem m ∧ s.memoryCheck vl o m = some f := by
  unfold State.readSource2 at h
  cases hs : o.src2 with
  | reg n => simp [hs] at h
  | mem m =>
    rw [hs] at h
    cases hc : s.memoryCheck vl o m with
    | some g => exact ⟨m, rfl, by simpa [hc] using h⟩
    | none => simp [hc] at h

/-- A source that can be read is read; its lanes are those of `rightLane`. -/
theorem State.readSource2_of_readable {s : State} {vl : VecLen} {o : Operands} (h : s.SourceReadable vl o) :
    ∃ v t, s.readSource2 vl o = .ok (v, t) ∧ ((∃ n, o.src2 = .reg n ∧ t = s) ∨
        ∃ m, o.src2 = .mem m ∧ t = s.observe (s.linearAddress vl o m) vl.bytes) ∧
      ∀ j < vl.lanes, lane v j = s.rightLane vl o j := by
  cases hs : o.src2 with
  | reg n =>
    refine ⟨_, _, s.readSource2_reg vl o hs, .inl ⟨n, rfl, rfl⟩, fun j hj => ?_⟩
    simp only [State.rightLane, hs]
    exact s.lane_readVec vl n hj
  | mem m =>
    simp only [State.SourceReadable, hs] at h
    refine ⟨_, _, s.readSource2_mem vl o hs h, .inr ⟨m, rfl, rfl⟩, fun j hj => ?_⟩
    simp only [State.rightLane, hs]
    have h1 := VecLen.bytes_eq vl
    have h2 := VecLen.lanes_le vl
    exact s.lane_memRead _ _ (by omega) (by omega)

/-! ### What a form can do -/

/-- Every meaning is the shared operation with its form's parameters. -/
theorem exec_eq_compareWords (i : Instr) (s : State) :
    exec i s = compareWords i.signedness i.vecLen i.operands s := by
  cases i <;> rfl

/-- A ready form with a readable source completes. -/
theorem compareWords_completes {sg : Signedness} {vl : VecLen} {o : Operands} {s : State} (hr : s.Ready vl)
    (hl : o.fixed.legal = true) {v : Vec} {t : State} (hs : s.readSource2 vl o = .ok (v, t)) :
    compareWords sg vl o s = .next (t.complete o
      (vpcmp sg vl (predicateBits o.imm8) (s.readVec vl o.src1) v (s.maskOperand o.mask))) := by
  have hm := State.mode64_of_evexEnabled hr.1
  simp [compareWords, hm, hr.valid hl, hr.2.2, hs]

/-- A next state comes from a ready form with a source that was read, and is the completed state. -/
theorem compareWords_next {sg : Signedness} {vl : VecLen} {o : Operands} {s u : State}
    (h : compareWords sg vl o s = .next u) :
    s.Ready vl ∧ o.fixed.legal = true ∧ ∃ v t, s.readSource2 vl o = .ok (v, t) ∧
      u = t.complete o
        (vpcmp sg vl (predicateBits o.imm8) (s.readVec vl o.src1) v (s.maskOperand o.mask)) := by
  simp only [compareWords] at h
  split at h
  · cases h
  · split at h
    · simp [raise] at h
    · rename_i hv
      split at h
      · simp [raise] at h
      · rename_i ht
        simp only [State.invalidOpcode, fixedBitsWrong_eq, Bool.or_eq_true, Bool.not_eq_true', not_or,
          Bool.not_eq_false] at hv
        refine ⟨⟨hv.1.1, hv.1.2, by simpa using ht⟩, by simpa using hv.2, ?_⟩
        cases hs : s.readSource2 vl o with
        | error f => simp [hs] at h
        | ok r =>
          obtain ⟨v, t⟩ := r
          simp only [hs, Host.Outcome.next.injEq] at h
          exact ⟨v, t, rfl, h.symm⟩

/-- Why a form does not complete, in the order of R203. -/
theorem compareWords_stops (sg : Signedness) (vl : VecLen) (o : Operands) (s : State) :
    (s.mode64 = false ∧ compareWords sg vl o s = .refused .notMode64) ∨
    (s.mode64 = true ∧ s.invalidOpcode vl o = true ∧ compareWords sg vl o s = raise .ud s) ∨
    (s.mode64 = true ∧ s.invalidOpcode vl o = false ∧ s.cr0Ts = true ∧ compareWords sg vl o s = raise .nm s) ∨
    (s.Ready vl ∧ o.fixed.legal = true ∧
      ((∃ f, s.readSource2 vl o = .error f ∧ compareWords sg vl o s = .fault f) ∨
        ∃ u, compareWords sg vl o s = .next u)) := by
  cases hm : s.mode64 with
  | false => exact .inl ⟨rfl, by simp [compareWords, hm]⟩
  | true =>
    cases hv : s.invalidOpcode vl o with
    | true => exact .inr (.inl ⟨rfl, rfl, by simp [compareWords, hm, hv]⟩)
    | false =>
      cases ht : s.cr0Ts with
      | true => exact .inr (.inr (.inl ⟨rfl, rfl, rfl, by simp [compareWords, hm, hv, ht]⟩))
      | false =>
        refine .inr (.inr (.inr ?_))
        have hv' := hv
        simp only [State.invalidOpcode, fixedBitsWrong_eq, Bool.or_eq_false_iff, Bool.not_eq_false'] at hv'
        refine ⟨⟨hv'.1.1, hv'.1.2, ht⟩, hv'.2, ?_⟩
        cases hs : s.readSource2 vl o with
        | error f => exact .inl ⟨f, rfl, by simp [compareWords, hm, hv, ht, hs]⟩
        | ok r =>
          obtain ⟨v, t⟩ := r
          exact .inr ⟨_, by simp [compareWords, hm, hv, ht, hs]; rfl⟩

end Sys2Proof.Machine
end

