-- ==== Sys2Proof/Laws/Decode.lean ====
section
/-! SUPPORT. What the byte fields, the displacements and the second source give back when they are encoded, and how
many bytes each part takes (30_encoding.md R81 to R121). -/

namespace Sys2Proof

/-! ### Bytes with fields -/

theorem byte233_fields : ∀ (a : BitVec 2) (b c : BitVec 3),
    modrmMod (byte233 a b c) = a ∧ modrmReg (byte233 a b c) = b ∧ modrmRm (byte233 a b c) = c := by
  decide +kernel

@[simp] theorem modrmMod_byte233 (a : BitVec 2) (b c : BitVec 3) : modrmMod (byte233 a b c) = a :=
  (byte233_fields a b c).1

@[simp] theorem modrmReg_byte233 (a : BitVec 2) (b c : BitVec 3) : modrmReg (byte233 a b c) = b :=
  (byte233_fields a b c).2.1

@[simp] theorem modrmRm_byte233 (a : BitVec 2) (b c : BitVec 3) : modrmRm (byte233 a b c) = c :=
  (byte233_fields a b c).2.2

@[simp] theorem extended_split : ∀ b : BitVec 4, extended (b.getLsbD 3) (b.setWidth 3) = b := by decide +kernel

@[simp] theorem register5_split : ∀ n : BitVec 5,
    (BitVec.ofBool (n.getLsbD 4) ++ extended (n.getLsbD 3) (n.setWidth 3) : BitVec (1 + 4)) = n := by
  decide +kernel

/-- The fields of P0 (R85). -/
theorem encodeP0_fields (o : Operands) :
    inverted (encodeP0 o) 7 = o.fixed.r ∧ inverted (encodeP0 o) 6 = o.src2.x ∧ inverted (encodeP0 o) 5 = o.src2.b ∧
      inverted (encodeP0 o) 4 = o.fixed.rHi ∧ field (encodeP0 o) 2 2 = 0#2 ∧ field (encodeP0 o) 0 2 = 3#2 := by
  simp only [encodeP0]
  generalize o.fixed.r = r
  generalize o.fixed.rHi = q
  generalize o.src2.x = x
  generalize o.src2.b = b
  revert r q x b
  decide

/-- The fields of P1 (R86). -/
theorem encodeP1_fields (o : Operands) :
    (encodeP1 o).getLsbD 7 = true ∧ (encodeP1 o).getLsbD 2 = true ∧ field (encodeP1 o) 0 2 = 1#2 ∧
      ~~~(field (encodeP1 o) 3 4) = o.src1.setWidth 4 := by
  simp only [encodeP1]
  generalize o.src1.setWidth 4 = v
  revert v
  decide +kernel

/-- The fields of P2 (R87). -/
theorem encodeP2_fields (vl : VecLen) (o : Operands) :
    (encodeP2 vl o).getLsbD 7 = o.fixed.z ∧ field (encodeP2 vl o) 5 2 = vl.code ∧
      (encodeP2 vl o).getLsbD 4 = o.fixed.b ∧ inverted (encodeP2 vl o) 3 = o.src1.getLsbD 4 ∧
        field (encodeP2 vl o) 0 3 = o.mask := by
  simp only [encodeP2]
  generalize o.fixed.z = z
  generalize o.fixed.b = b
  generalize o.src1.getLsbD 4 = v
  generalize o.mask = m
  revert z b v m
  cases vl <;> decide +kernel

@[simp] theorem vecLenOf_code (vl : VecLen) : vecLenOf vl.code = some vl := by cases vl <;> decide

@[simp] theorem signednessOf_opcode (sg : Signedness) : signednessOf sg.opcode = some sg := by
  cases sg <;> decide

/-! ### Displacements -/

theorem takeDisp32_encode (d : BitVec 32) (rest : List Byte) :
    takeDisp32 (encodeDisp32 d ++ rest) = some (d, rest) := by
  have h : (d.extractLsb' 24 8 ++ (d.extractLsb' 16 8 ++ (d.extractLsb' 8 8 ++ d.extractLsb' 0 8)) :
      BitVec (8 + (8 + (8 + 8)))) = d := by
    apply BitVec.eq_of_getLsbD_eq
    intro i hi
    simp only [BitVec.getLsbD_append, BitVec.getLsbD_extractLsb']
    rcases Nat.lt_or_ge i 8 with h0 | h0
    · simp [h0, show i < 16 by omega, show i < 24 by omega]
    · rcases Nat.lt_or_ge i 16 with h1 | h1
      · simp [Nat.not_lt.2 h0, show i - 8 < 8 by omega, show 8 + (i - 8) = i by omega, show i < 16 by omega,
          show i < 24 by omega]
      · rcases Nat.lt_or_ge i 24 with h2 | h2
        · simp [Nat.not_lt.2 h1, h2, show i - 16 < 8 by omega, show 16 + (i - 16) = i by omega]
        · simp [Nat.not_lt.2 h2, show i - 24 < 8 by omega,
            show 24 + (i - 24) = i by omega]
  show some ((d.extractLsb' 24 8 ++ (d.extractLsb' 16 8 ++ (d.extractLsb' 8 8 ++ d.extractLsb' 0 8)) :
    BitVec (8 + (8 + (8 + 8)))), rest) = some (d, rest)
  rw [h]

theorem takeDisp32_some {bs rest : List Byte} {d : BitVec 32} (h : takeDisp32 bs = some (d, rest)) :
    ∃ u, bs = u ++ rest ∧ u.length = 4 := by
  unfold takeDisp32 at h
  split at h
  · simp only [Option.some.injEq, Prod.mk.injEq] at h
    obtain ⟨-, rfl⟩ := h
    exact ⟨[_, _, _, _], rfl, rfl⟩
  · cases h

theorem takeDisp_encode (d : Disp) (rest : List Byte) : takeDisp d.mod (d.bytes ++ rest) = some (d, rest) := by
  cases d with
  | zero => rfl
  | disp8 d => rfl
  | disp32 d =>
    show (takeDisp32 (encodeDisp32 d ++ rest)).map (fun x => (Disp.disp32 x.1, x.2)) = _
    rw [takeDisp32_encode]
    rfl

theorem Disp.mod_ne_three (d : Disp) : d.mod ≠ 3#2 := by cases d <;> (simp only [Disp.mod]; decide)

theorem Disp.mod_eq_zero {d : Disp} (h : d.mod = 0#2) : d = .zero := by
  cases d with
  | zero => rfl
  | disp8 d => exact absurd h (by simp only [Disp.mod]; decide)
  | disp32 d => exact absurd h (by simp only [Disp.mod]; decide)

/-- With mod = 00b a base whose low field is 101b cannot be encoded (R101, R106). -/
theorem Disp.fitsBase_mod {d : Disp} {b : BitVec 4} (h : d.fitsBase b = true) :
    ¬(d.mod = 0#2 ∧ b.setWidth 3 = 5#3) := by
  rintro ⟨h1, h2⟩
  rw [Disp.mod_eq_zero h1] at h
  simp [Disp.fitsBase, baseLow, h2] at h

/-- The second source reads back (R98 to R106). -/
theorem takeSource2_encode (s : Source2) (hs : s.encodable = true) (dest : BitVec 3) (rest : List Byte) :
    takeSource2 s.x s.b (byte233 s.mod dest s.rm) (s.bytes ++ rest) = some (s, rest) := by
  cases s with
  | reg n =>
    simp only [takeSource2, modrmMod_byte233, modrmRm_byte233, Source2.mod, Source2.rm, Source2.x, Source2.b,
      Source2.bytes, if_pos]
    rw [register5_split]
    rfl
  | mem m =>
    cases m with
    | base b d =>
      simp only [Source2.encodable, MemOperand.encodable, Bool.and_eq_true, bne_iff_ne, ne_eq, baseLow] at hs
      simp only [takeSource2, modrmMod_byte233, modrmRm_byte233, Source2.mod, Source2.rm, Source2.x, Source2.b,
        Source2.bytes, if_neg d.mod_ne_three, if_neg hs.1, if_neg (Disp.fitsBase_mod hs.2), takeDisp_encode,
        Option.map_some, extended_split]
    | ripRel d =>
      simp only [takeSource2, modrmMod_byte233, modrmRm_byte233, Source2.mod, Source2.rm, Source2.x, Source2.b,
        Source2.bytes, takeDisp32_encode]
      rfl
    | sib b sc i d =>
      simp only [Source2.encodable, MemOperand.encodable] at hs
      simp only [takeSource2, modrmMod_byte233, modrmReg_byte233, modrmRm_byte233, Source2.mod, Source2.rm,
        Source2.x, Source2.b, Source2.bytes, List.cons_append, if_neg d.mod_ne_three, if_true,
        if_neg (Disp.fitsBase_mod hs), takeDisp_encode, Option.map_some, extended_split]
    | sibNoBase sc i d =>
      simp only [takeSource2, modrmMod_byte233, modrmReg_byte233, modrmRm_byte233, Source2.mod, Source2.rm,
        Source2.x, Source2.b, Source2.bytes, List.cons_append, if_true, takeDisp32_encode, Option.map_some,
        extended_split, and_self]
      rfl

/-! ### Prefixes -/

theorem segOfByte_byteOfSeg (g : SegPrefix) : segOfByte (byteOfSeg g) = some g := by cases g <;> decide

theorem byteOfSeg_ne_addr32 (g : SegPrefix) : byteOfSeg g ≠ 0x67#8 := by cases g <;> decide

/-- The escape byte ends the prefix loop. -/
theorem scanPrefixes_escape (p : PrefixScan) (t : List Byte) : scanPrefixes p (0x62#8 :: t) = (p, 0x62#8 :: t) := by
  simp [scanPrefixes, segOfByte]

/-- Where nothing stands before 62h the EVEX part decides (R120 steps 2 to 4). -/
theorem decode_escape (t : List Byte) : decode (0x62#8 :: t) = decodeEvex { seg := none, addr32 := false } t := by
  have h : forbiddenPrefix 0x62#8 = false := by decide
  simp [decode, scanPrefixes_escape, h]

/-- Prefix bytes before 62h are skipped and counted (R120 step 2). -/
theorem skipPrefixes_append (n : Nat) {qs : List Byte} (t : List Byte) (h : ∀ q ∈ qs, anyPrefix q = true) :
    skipPrefixes n (qs ++ 0x62#8 :: t) = (n + qs.length, 0x62#8 :: t) := by
  induction qs generalizing n with
  | nil => simp [skipPrefixes, show anyPrefix 0x62#8 = false by decide]
  | cons q qs ih =>
    rw [List.cons_append, skipPrefixes, if_pos (h q List.mem_cons_self),
      ih (n + 1) (fun x hx => h x (List.mem_cons_of_mem q hx)), List.length_cons, Nat.add_assoc, Nat.add_comm 1]

/-- Encoded prefixes are counted and named as they were (R110, R111). -/
theorem scanPrefixes_encode (p : Prefixes) (t : List Byte) :
    scanPrefixes { nSeg := 0, nA32 := 0, seg := none } (p.bytes ++ 0x62#8 :: t) =
      ({ nSeg := p.seg.isSome.toNat, nA32 := p.addr32.toNat, seg := p.seg }, 0x62#8 :: t) := by
  obtain ⟨seg, a⟩ := p
  cases seg with
  | none =>
    cases a
    · exact scanPrefixes_escape _ _
    · show scanPrefixes _ (0x67#8 :: 0x62#8 :: t) = _
      rw [scanPrefixes, if_pos rfl, scanPrefixes_escape]
      rfl
  | some g =>
    cases a
    · show scanPrefixes _ (byteOfSeg g :: 0x62#8 :: t) = _
      rw [scanPrefixes, if_neg (byteOfSeg_ne_addr32 g), segOfByte_byteOfSeg]
      exact scanPrefixes_escape _ _
    · show scanPrefixes _ (byteOfSeg g :: 0x67#8 :: 0x62#8 :: t) = _
      rw [scanPrefixes, if_neg (byteOfSeg_ne_addr32 g), segOfByte_byteOfSeg]
      show scanPrefixes _ (0x67#8 :: 0x62#8 :: t) = _
      rw [scanPrefixes, if_pos rfl, scanPrefixes_escape]
      rfl

open Machine in
/-- An admitted byte is 67h or a segment override (R110, R111). -/
theorem admittedByte_cases {b : Byte} (h : AdmittedByte b) : b = 0x67#8 ∨ ∃ g, b = byteOfSeg g := by
  simp only [AdmittedByte, List.mem_cons, List.not_mem_nil, or_false] at h
  rcases h with h | h | h | h | h | h | h
  · exact .inl h
  · exact .inr ⟨.es, h⟩
  · exact .inr ⟨.cs, h⟩
  · exact .inr ⟨.ss, h⟩
  · exact .inr ⟨.ds, h⟩
  · exact .inr ⟨.fs, h⟩
  · exact .inr ⟨.gs, h⟩

open Machine in
/-- The prefix loop counts a run of admitted bytes whole, in whatever order it stands (R120 step 1). -/
theorem scanPrefixes_append {ps : List Byte} (h : ∀ b ∈ ps, AdmittedByte b) (p : PrefixScan) (rest : List Byte) :
    ∃ g, scanPrefixes p (ps ++ rest) =
      scanPrefixes { nSeg := p.nSeg + (ps.length - ps.count 0x67#8), nA32 := p.nA32 + ps.count 0x67#8, seg := g } rest := by
  induction ps generalizing p with
  | nil => exact ⟨p.seg, rfl⟩
  | cons b t ih =>
    have hc := List.count_le_length (a := 0x67#8) (l := t)
    have ih := ih fun x hx => h x (List.mem_cons_of_mem b hx)
    rcases admittedByte_cases (h b List.mem_cons_self) with rfl | ⟨g, rfl⟩
    · rw [List.cons_append, scanPrefixes, if_pos rfl]
      obtain ⟨g, hg⟩ := ih { p with nA32 := p.nA32 + 1 }
      refine ⟨g, hg.trans ?_⟩
      simp only [List.length_cons, List.count_cons_self]
      congr 2 <;> omega
    · rw [List.cons_append, scanPrefixes, if_neg (byteOfSeg_ne_addr32 g), segOfByte_byteOfSeg]
      obtain ⟨g', hg⟩ := ih { p with nSeg := p.nSeg + 1, seg := some g }
      refine ⟨g', hg.trans ?_⟩
      simp only [List.length_cons, List.count_cons_of_ne (byteOfSeg_ne_addr32 g)]
      congr 2
      omega

open Machine in
/-- The prefixes do not change what the bytes after 62h decode to, but for being named in an instruction. -/
theorem decodeEvex_prefixes (pre : Prefixes) (t : List Byte) :
    decodeEvex pre t =
      match decodeEvex { seg := none, addr32 := false } t with
      | .instr j rest => .instr (withPrefixes j pre) rest
      | .invalid why => .invalid why
      | .tooLong => .tooLong
      | .refused why => .refused why := by
  unfold decodeEvex
  split
  · split <;> try rfl
    split <;> try rfl
    split <;> try rfl
    split <;> try rfl
    split <;> try rfl
    rename_i sg _
    split <;> try rfl
    split <;> try rfl
    split <;> try rfl
    rename_i vl _
    split <;> try rfl
    cases sg <;> cases vl <;> rfl
  · rfl

/-! ### Lengths -/

theorem encodeDisp32_length (d : BitVec 32) : (encodeDisp32 d).length = 4 := rfl

theorem Disp.bytes_length (d : Disp) : d.bytes.length = d.length := by cases d <;> rfl

theorem Source2.bytes_length (s : Source2) : s.bytes.length = s.length := by
  cases s with
  | reg n => rfl
  | mem m =>
    cases m with
    | base b d => exact d.bytes_length
    | ripRel d => rfl
    | sib b sc i d =>
      show (d.bytes.length + 1) = 1 + d.length
      rw [d.bytes_length, Nat.add_comm]
    | sibNoBase sc i d => rfl

theorem Prefixes.bytes_length (p : Prefixes) : p.bytes.length = p.length := by
  obtain ⟨seg, a⟩ := p
  cases seg <;> cases a <;> rfl

/-- An instruction's bytes are as many as its length says (R83). -/
theorem encode_length (i : Instr) : (encode i).length = i.length := by
  simp only [encode, Instr.length, Operands.length, List.length_append, List.length_cons, List.length_nil,
    Prefixes.bytes_length, Source2.bytes_length]
  omega

/-! ### What decoding read -/

theorem Instr.ofForm_self (i : Instr) : Instr.ofForm i.signedness i.vecLen i.operands = i := by cases i <;> rfl

theorem takeDisp_some {mod : BitVec 2} {bs rest : List Byte} {d : Disp} (h : takeDisp mod bs = some (d, rest)) :
    (∃ u, bs = u ++ rest ∧ u.length = d.length) ∧ (d = .zero → mod = 0#2) := by
  unfold takeDisp at h
  split at h
  · rename_i hm
    simp only [Option.some.injEq, Prod.mk.injEq] at h
    obtain ⟨rfl, rfl⟩ := h
    exact ⟨⟨[], rfl, rfl⟩, fun _ => hm⟩
  · split at h
    · split at h
      · cases h
      · simp only [Option.some.injEq, Prod.mk.injEq] at h
        obtain ⟨rfl, rfl⟩ := h
        exact ⟨⟨[_], rfl, rfl⟩, fun e => by cases e⟩
    · obtain ⟨⟨d', t⟩, h2, h3⟩ := Option.map_eq_some_iff.1 h
      simp only [Prod.mk.injEq] at h3
      obtain ⟨rfl, rfl⟩ := h3
      exact ⟨takeDisp32_some h2, fun e => by cases e⟩

theorem baseLow_extended : ∀ (b : Bool) (r : BitVec 3), baseLow (extended b r) = r := by decide +kernel

theorem Disp.fitsBase_of {d : Disp} {b : Bool} {r : BitVec 3} {mod : BitVec 2} (h : d = .zero → mod = 0#2)
    (hr : ¬(mod = 0#2 ∧ r = 5#3)) : d.fitsBase (extended b r) = true := by
  cases d with
  | zero => simpa [Disp.fitsBase, baseLow_extended] using fun e => hr ⟨h rfl, e⟩
  | disp8 d => rfl
  | disp32 d => rfl

/-- The second source read has a shape the encoding can express, and takes its length from the bytes. -/
theorem takeSource2_some {x b : Bool} {modrm : Byte} {bs rest : List Byte} {s : Source2}
    (h : takeSource2 x b modrm bs = some (s, rest)) :
    s.encodable = true ∧ ∃ u, bs = u ++ rest ∧ u.length = s.length := by
  unfold takeSource2 at h
  split at h
  · simp only [Option.some.injEq, Prod.mk.injEq] at h
    obtain ⟨rfl, rfl⟩ := h
    exact ⟨rfl, [], rfl, rfl⟩
  · split at h
    · split at h
      · cases h
      · rename_i sib t
        split at h
        · obtain ⟨⟨d, t'⟩, h2, h3⟩ := Option.map_eq_some_iff.1 h
          simp only [Prod.mk.injEq] at h3
          obtain ⟨rfl, rfl⟩ := h3
          obtain ⟨u, rfl, hu⟩ := takeDisp32_some h2
          refine ⟨rfl, sib :: u, rfl, ?_⟩
          simp only [Source2.length, MemOperand.length, List.length_cons]
          omega
        · rename_i hn
          obtain ⟨⟨d, t'⟩, h2, h3⟩ := Option.map_eq_some_iff.1 h
          simp only [Prod.mk.injEq] at h3
          obtain ⟨rfl, rfl⟩ := h3
          obtain ⟨⟨u, rfl, hu⟩, hz⟩ := takeDisp_some h2
          refine ⟨Disp.fitsBase_of hz hn, sib :: u, rfl, ?_⟩
          simp only [Source2.length, MemOperand.length, List.length_cons]
          omega
    · rename_i h4
      split at h
      · obtain ⟨⟨d, t'⟩, h2, h3⟩ := Option.map_eq_some_iff.1 h
        simp only [Prod.mk.injEq] at h3
        obtain ⟨rfl, rfl⟩ := h3
        exact ⟨rfl, takeDisp32_some h2⟩
      · rename_i hn
        obtain ⟨⟨d, t'⟩, h2, h3⟩ := Option.map_eq_some_iff.1 h
        simp only [Prod.mk.injEq] at h3
        obtain ⟨rfl, rfl⟩ := h3
        obtain ⟨hu, hz⟩ := takeDisp_some h2
        refine ⟨?_, hu⟩
        simp only [Source2.encodable, MemOperand.encodable, Bool.and_eq_true, bne_iff_ne, ne_eq, baseLow_extended]
        exact ⟨h4, Disp.fitsBase_of hz hn⟩

/-- With all bytes there (SIB, displacement and immediate take at most six) a second source is always read. -/
theorem takeSource2_exists (x b : Bool) (modrm : Byte) {bs : List Byte} (h : 6 ≤ bs.length) :
    ∃ s imm rest, takeSource2 x b modrm bs = some (s, imm :: rest) := by
  match bs, h with
  | b0 :: b1 :: b2 :: b3 :: b4 :: b5 :: t, _ =>
    simp only [takeSource2, takeDisp, takeDisp32]
    split
    · exact ⟨_, _, _, rfl⟩
    · split
      · split
        · exact ⟨_, _, _, rfl⟩
        · split
          · exact ⟨_, _, _, rfl⟩
          · split <;> exact ⟨_, _, _, rfl⟩
      · split
        · exact ⟨_, _, _, rfl⟩
        · split
          · exact ⟨_, _, _, rfl⟩
          · split <;> exact ⟨_, _, _, rfl⟩

/-- What the EVEX part was when it decodes to an instruction (R120 steps 4 to 15). -/
theorem decodeEvex_instr {pre : Prefixes} {bs rest : List Byte} {i : Instr}
    (h : decodeEvex pre bs = .instr i rest) :
    ∃ p0 p1 p2 op modrm tail sg vl src2 imm8, bs = p0 :: p1 :: p2 :: op :: modrm :: tail ∧
      field p0 2 2 = 0#2 ∧ p1.getLsbD 2 = true ∧ field p0 0 2 = 3#2 ∧ signednessOf op = some sg ∧
      field p1 0 2 = 1#2 ∧ p1.getLsbD 7 = true ∧ vecLenOf (field p2 5 2) = some vl ∧
      takeSource2 (inverted p0 6) (inverted p0 5) modrm tail = some (src2, imm8 :: rest) ∧
      i = .ofForm sg vl (operandsOf pre p0 p1 p2 modrm src2 imm8) := by
  unfold decodeEvex at h
  split at h
  · rename_i p0 p1 p2 op modrm tail
    split at h
    · cases h
    · rename_i h1
      split at h
      · cases h
      · rename_i h2
        split at h
        · cases h
        · split at h
          · cases h
          · rename_i h3
            split at h
            · cases h
            · rename_i sg h4
              split at h
              · cases h
              · rename_i h5
                split at h
                · cases h
                · rename_i h6
                  split at h
                  · cases h
                  · rename_i vl h7
                    split at h
                    · cases h
                    · cases h
                    · rename_i src2 imm8 rest' h8
                      simp only [Decoded.instr.injEq] at h
                      obtain ⟨rfl, rfl⟩ := h
                      exact ⟨p0, p1, p2, op, modrm, tail, sg, vl, src2, imm8, rfl, by simpa using h1,
                        by simpa using h2, by simpa using h3, h4, by simpa using h5, by simpa using h6, h7, h8, rfl⟩
  · cases h

/-- The prefix loop: the bytes it read are as many as it counted, and it names a segment if it counted one. -/
theorem scanPrefixes_spec {p q : PrefixScan} {bs r : List Byte} (h : scanPrefixes p bs = (q, r)) :
    (∃ pb, bs = pb ++ r ∧ p.nSeg + p.nA32 + pb.length = q.nSeg + q.nA32) ∧ p.nSeg ≤ q.nSeg ∧ p.nA32 ≤ q.nA32 ∧
      ((p.nSeg = 0 ↔ p.seg = none) → (q.nSeg = 0 ↔ q.seg = none)) := by
  induction bs generalizing p with
  | nil =>
    simp only [scanPrefixes, Prod.mk.injEq] at h
    obtain ⟨rfl, rfl⟩ := h
    exact ⟨⟨[], rfl, by simp⟩, le_refl _, le_refl _, id⟩
  | cons b t ih =>
    rw [scanPrefixes] at h
    split at h
    · obtain ⟨⟨pb, rfl, hl⟩, h2, h3, h4⟩ := ih h
      simp only at hl h2 h3 h4
      exact ⟨⟨b :: pb, rfl, by simp only [List.length_cons]; omega⟩, h2, by omega, h4⟩
    · split at h
      · obtain ⟨⟨pb, rfl, hl⟩, h2, h3, h4⟩ := ih h
        simp only at hl h2 h3 h4
        exact ⟨⟨b :: pb, rfl, by simp only [List.length_cons]; omega⟩, by omega, h3, fun _ => h4 (by simp)⟩
      · simp only [Prod.mk.injEq] at h
        obtain ⟨rfl, rfl⟩ := h
        exact ⟨⟨[], rfl, by simp⟩, le_refl _, le_refl _, id⟩

/-- What the bytes were when they decode to an instruction: prefix bytes, 62h, and an EVEX part (R81, R120). -/
theorem decode_instr {bs rest : List Byte} {i : Instr} (h : decode bs = .instr i rest) :
    ∃ pb pre t, bs = pb ++ 0x62#8 :: t ∧ pb.length = pre.length ∧ decodeEvex pre t = .instr i rest := by
  unfold decode at h
  cases hs : scanPrefixes { nSeg := 0, nA32 := 0, seg := none } bs with
  | mk p r =>
    obtain ⟨⟨pb, rfl, hl⟩, -, -, h4⟩ := scanPrefixes_spec hs
    have hseg := h4 (by simp)
    rw [hs] at h
    simp only at h
    split at h
    · cases h
    · rename_i hc
      split at h
      · cases h
      · rename_i b t
        split at h
        · split at h
          · cases h
          · split at h
            · unfold decodeForbidden at h
              split at h
              · split at h <;> cases h
              · cases h
              · cases h
              · cases h
            · cases h
        · split at h
          · rename_i hb
            subst hb
            refine ⟨pb, _, t, rfl, ?_, h⟩
            simp only [Nat.zero_add] at hl
            rw [hl, Prefixes.length]
            have h1 : p.nSeg = p.seg.isSome.toNat := by
              cases hp : p.seg with
              | none => simpa using hseg.2 hp
              | some g =>
                have : p.nSeg ≠ 0 := fun e => by simp [hseg.1 e] at hp
                simp only [Option.isSome_some, Bool.toNat_true]
                omega
            have h2 : p.nA32 = (p.nA32 == 1).toNat := by
              have : p.nA32 = 0 ∨ p.nA32 = 1 := by omega
              rcases this with e | e <;> simp [e]
            show p.nSeg + p.nA32 = p.seg.isSome.toNat + (p.nA32 == 1).toNat
            rw [← h1, ← h2]
          · cases h

end Sys2Proof
end

