-- ==== Sys2Proof/Laws/PerInstr.lean ====
section
/-! SUPPORT. Statements made per instruction: an instruction's encoding has the length R83 gives it. -/

namespace Sys2Proof.Laws.EncodedLength

/-- The encoding of an instruction has its length in bytes (R83). -/
def Statement (i : Instr) : Prop := (encode i).length = i.length

theorem vpcmpw128 (o : Operands) : Statement (.vpcmpw128 o) := encode_length _
theorem vpcmpw256 (o : Operands) : Statement (.vpcmpw256 o) := encode_length _
theorem vpcmpw512 (o : Operands) : Statement (.vpcmpw512 o) := encode_length _
theorem vpcmpuw128 (o : Operands) : Statement (.vpcmpuw128 o) := encode_length _
theorem vpcmpuw256 (o : Operands) : Statement (.vpcmpuw256 o) := encode_length _
theorem vpcmpuw512 (o : Operands) : Statement (.vpcmpuw512 o) := encode_length _

end Sys2Proof.Laws.EncodedLength
end

