-- ==== Sys2Proof/Tests/Slice0.lean ====
section
/-! SUPPORT. Tests whose expected results are the vectors of spec/95_test_vectors.md or are worked out by hand from its
rules, the smoke tests of well-formedness, and for every statement with hypotheses a case that meets them. -/

namespace Sys2Proof.Tests

open Sys2Proof Sys2Proof.Machine

-- One theorem after the other: many kernel evaluations at once would each hold a thread and its stack.
set_option Elab.async false

/-! ### Helpers -/

/-- No legacy bytes before 62h. -/
def plain : Prefixes := { seg := none, addr32 := false }

/-- Legal fixed bits. -/
def legalBits : FixedBits := { r := false, rHi := false, z := false, b := false }

/-- Operands with legal fixed bits and nothing before 62h. -/
def ops (dest mask : BitVec 3) (src1 : BitVec 5) (src2 : Source2) (imm8 : BitVec 8) : Operands :=
  { pre := plain, fixed := legalBits, dest := dest, mask := mask, src1 := src1, src2 := src2, imm8 := imm8 }

/-- A register form. -/
def regOps (dest mask : BitVec 3) (src1 src2 : BitVec 5) (imm8 : BitVec 8) : Operands :=
  ops dest mask src1 (.reg src2) imm8

/-- A vector from its words, lane 0 first. -/
def words (ws : List Nat) : Vec := ws.foldr (fun w v => (v <<< 16) ||| BitVec.ofNat 512 w) 0#512

/-- A8, A16, A32 of 95_test_vectors.md section 3, as the words of A32. -/
def a32 : List Nat :=
  [0x0000, 0x0001, 0x7FFF, 0x8000, 0xFFFF, 0x1234, 0x8001, 0x0005] ++
  [0xFFFE, 0x0100, 0x00FF, 0x8000, 0x7FFF, 0xC000, 0x4000, 0xFFFF] ++
  [0x0000, 0x1111, 0x2222, 0x3333, 0x4444, 0x5555, 0x6666, 0x7777] ++
  [0x8888, 0x9999, 0xAAAA, 0xBBBB, 0xCCCC, 0xDDDD, 0xEEEE, 0xFFFF]

/-- B8, B16, B32 of the same section. -/
def b32 : List Nat :=
  [0x0000, 0x0000, 0x8000, 0x7FFF, 0x0000, 0x1234, 0x8000, 0x0006] ++
  [0xFFFF, 0x00FF, 0x0100, 0x8000, 0x7FFF, 0x4000, 0xC000, 0x0001] ++
  [0xFFFF, 0xEEEE, 0xDDDD, 0xCCCC, 0xBBBB, 0xAAAA, 0x9999, 0x8888] ++
  [0x7777, 0x6666, 0x5555, 0x4444, 0x3333, 0x2222, 0x1111, 0x0000]

/-- The launch state with A32 in ZMM1, B32 in ZMM2 and every mask register all ones: the shorter forms find A8, B8 or
A16, B16 in the low bits and other words above. -/
def launch : State :=
  { State.reset with
    zmm := ((Vector.replicate 32 0#512).set 1 (words a32)).set 2 (words b32)
    k := Vector.replicate 8 0xFFFFFFFFFFFFFFFF }

/-- A general register set. -/
def withGpr (s : State) (n : BitVec 4) (v : Addr) : State := { s with gpr := s.gpr.set n.toNat v n.isLt }

/-- Bytes placed in memory. -/
def withBytes (s : State) (a : Addr) (bs : List Nat) : State :=
  { s with mem := s.mem.writeBytes a (bs.map (BitVec.ofNat 8)) }

/-- Another fault-suppression configuration. -/
def suppressing (s : State) (b : Bool) : State := { s with cfg := { s.cfg with faultSuppression := b } }

/-- The launch memory as one region of an access kind. -/
def mapped (s : State) (a : Access) : State :=
  { s with map := [{ base := 0, size := 2 ^ 64, access := a, shared := false }] }

/-- The next state of an outcome. -/
def nextOf : Host.Outcome State Fault Refusal → Option State
  | .next t => some t
  | .fault _ => none
  | .refused _ => none

/-- k[n] afterwards. -/
def kOf (o : Host.Outcome State Fault Refusal) (n : BitVec 3) : Option MaskVal := (nextOf o).map fun t => t.kReg n

/-- The fault of an outcome. -/
def faultOf : Host.Outcome State Fault Refusal → Option Fault
  | .next _ => none
  | .fault f => some f
  | .refused _ => none

/-- The refusal of an outcome. -/
def refusalOf : Host.Outcome State Fault Refusal → Option Refusal
  | .next _ => none
  | .fault _ => none
  | .refused r => some r

theorem next_of_isSome {o : Host.Outcome State Fault Refusal} (h : (nextOf o).isSome = true) : ∃ t, o = .next t := by
  cases o <;> simp_all [nextOf]

theorem fault_of {o : Host.Outcome State Fault Refusal} {f : Fault} (h : faultOf o = some f) : o = .fault f := by
  cases o <;> simp_all [faultOf]

/-- A decidable property of every listed address (`decide` alone would try all 2^64 of them). -/
theorem all_of {l : List Addr} (p : Addr → Prop) [DecidablePred p] (h : (l.all fun a => decide (p a)) = true) :
    ∀ a ∈ l, p a := fun a ha => of_decide_eq_true (List.all_eq_true.1 h a ha)

/-- A decidable property of some listed address. -/
theorem any_of {l : List Addr} (p : Addr → Prop) [DecidablePred p] (h : (l.any fun a => decide (p a)) = true) :
    ∃ a ∈ l, p a := by
  obtain ⟨a, ha, h⟩ := List.any_eq_true.1 h
  exact ⟨a, ha, of_decide_eq_true h⟩

/-- The record of an exception at the launch state's RIP. -/
def record (vector : Nat) (code : Option (BitVec 32)) : Fault :=
  .raised { vector := vector, errorCode := code, cr2 := none, rip := 0xFFF0#64 }

/-! ### Well-formedness: one ill-formed term per check -/

/-- Base register number 4 or 12 needs a SIB byte (R101). -/
theorem test_illformed_base_needs_sib :
    (Instr.vpcmpw128 (ops 1 0 1 (.mem (.base 4#4 (.disp8 0#8))) 0)).wellFormed = false ∧
    (Instr.vpcmpw128 (ops 1 0 1 (.mem (.base 12#4 .zero)) 0)).wellFormed = false := by decide

/-- Base register number 5 or 13 needs a displacement (R101, R106). -/
theorem test_illformed_base_needs_disp :
    (Instr.vpcmpuw256 (ops 1 0 1 (.mem (.base 13#4 .zero)) 0)).wellFormed = false ∧
    (Instr.vpcmpuw256 (ops 1 0 1 (.mem (.sib 5#4 0#2 4#4 .zero)) 0)).wellFormed = false := by decide

/-- R, R', z and b must be 0 (R95, R114, R115). -/
theorem test_illformed_fixed_bits :
    (Instr.vpcmpw512 { regOps 1 0 1 2 0 with fixed := { legalBits with r := true } }).wellFormed = false ∧
    (Instr.vpcmpw512 { regOps 1 0 1 2 0 with fixed := { legalBits with rHi := true } }).wellFormed = false ∧
    (Instr.vpcmpw512 { regOps 1 0 1 2 0 with fixed := { legalBits with z := true } }).wellFormed = false ∧
    (Instr.vpcmpw512 { regOps 1 0 1 2 0 with fixed := { legalBits with b := true } }).wellFormed = false := by decide

/-- Terms that are well formed: the same shapes with what the checks ask for. -/
theorem test_wellformed :
    (Instr.vpcmpw128 (regOps 1 0 1 2 0)).wellFormed = true ∧
    (Instr.vpcmpw128 (ops 1 0 1 (.mem (.sib 4#4 0#2 4#4 .zero)) 0)).wellFormed = true ∧
    (Instr.vpcmpuw256 (ops 1 0 1 (.mem (.base 13#4 (.disp8 0#8))) 0)).wellFormed = true := by decide

/-! ### Decoding: the vectors of 95_test_vectors.md section 2 -/

/-- VPCMPW k1, xmm1, xmm2, 1 (R122). -/
theorem test_decode_vpcmpw128 :
    decode [0x62#8, 0xF3#8, 0xF5#8, 0x08#8, 0x3F#8, 0xCA#8, 0x01#8] = .instr (.vpcmpw128 (regOps 1 0 1 2 1)) [] := by
  decide

/-- VPCMPW k2 {k1}, ymm10, [rbx+64], 2, with a byte of the next instruction behind it. -/
theorem test_decode_vpcmpw256 :
    decode [0x62#8, 0xF3#8, 0xAD#8, 0x29#8, 0x3F#8, 0x53#8, 0x02#8, 0x02#8, 0x62#8] =
      .instr (.vpcmpw256 (ops 2 1 10 (.mem (.base 3#4 (.disp8 2#8))) 2)) [0x62#8] := by decide

/-- VPCMPW k6, zmm8, [rcx+r12*8+4096], 3: X = 1 with index 100b is R12. -/
theorem test_decode_vpcmpw512 :
    decode [0x62#8, 0xB3#8, 0xBD#8, 0x48#8, 0x3F#8, 0x74#8, 0xE1#8, 0x40#8, 0x03#8] =
      .instr (.vpcmpw512 (ops 6 0 8 (.mem (.sib 1#4 3#2 12#4 (.disp8 0x40#8))) 3)) [] := by decide

/-- VPCMPUW k4, xmm5, [rbp], 0. -/
theorem test_decode_vpcmpuw128 :
    decode [0x62#8, 0xF3#8, 0xD5#8, 0x08#8, 0x3E#8, 0x65#8, 0x00#8, 0x00#8] =
      .instr (.vpcmpuw128 (ops 4 0 5 (.mem (.base 5#4 (.disp8 0#8))) 0)) [] := by decide

/-- Program 2 of section 6: VPCMPUW k3, ymm4, [rbx+32], 1. -/
theorem test_decode_vpcmpuw256 :
    decode [0x62#8, 0xF3#8, 0xDD#8, 0x28#8, 0x3E#8, 0x5B#8, 0x01#8, 0x01#8] =
      .instr (.vpcmpuw256 (ops 3 0 4 (.mem (.base 3#4 (.disp8 1#8))) 1)) [] := by decide

/-- VPCMPUW k5 {k3}, zmm29, zmm21, 6, whose fields section 2.1 checks bit by bit. -/
theorem test_decode_vpcmpuw512 :
    decode [0x62#8, 0xB3#8, 0x95#8, 0x43#8, 0x3E#8, 0xED#8, 0x06#8] =
      .instr (.vpcmpuw512 (regOps 5 3 29 21 6)) [] := by decide

/-- SIB without a base, absolute and with an index; RIP-relative (R103, R106). -/
theorem test_decode_no_base :
    decode [0x62#8, 0xF3#8, 0xBD#8, 0x28#8, 0x3F#8, 0x34#8, 0x55#8, 0x00#8, 0x01#8, 0x00#8, 0x00#8, 0x01#8] =
      .instr (.vpcmpw256 (ops 6 0 8 (.mem (.sibNoBase 1#2 2#4 256#32)) 1)) [] ∧
    decode [0x62#8, 0xF3#8, 0xFD#8, 0x08#8, 0x3F#8, 0x3D#8, 0x00#8, 0x01#8, 0x00#8, 0x00#8, 0x00#8] =
      .instr (.vpcmpw128 (ops 7 0 0 (.mem (.ripRel 256#32)) 0)) [] := by decide

/-- The FS override and the address-size byte (R110, R111). -/
theorem test_decode_legacy_bytes :
    decode [0x64#8, 0x62#8, 0xF3#8, 0xF5#8, 0x08#8, 0x3F#8, 0x08#8, 0x01#8] =
      .instr (.vpcmpw128 { ops 1 0 1 (.mem (.base 0#4 .zero)) 1 with pre := { seg := some .fs, addr32 := false } }) [] ∧
    decode [0x67#8, 0x62#8, 0xF3#8, 0xF5#8, 0x08#8, 0x3F#8, 0x08#8, 0x01#8] =
      .instr (.vpcmpw128 { ops 1 0 1 (.mem (.base 0#4 .zero)) 1 with pre := { seg := none, addr32 := true } }) [] := by
  decide

/-- z, b, stored R and stored R' wrong are fields of the instruction (R118). -/
theorem test_decode_fixed_bits :
    decode [0x62#8, 0xF3#8, 0xF5#8, 0x88#8, 0x3F#8, 0xCA#8, 0x01#8] =
      .instr (.vpcmpw128 { regOps 1 0 1 2 1 with fixed := { legalBits with z := true } }) [] ∧
    decode [0x62#8, 0xF3#8, 0xF5#8, 0x18#8, 0x3F#8, 0xCA#8, 0x01#8] =
      .instr (.vpcmpw128 { regOps 1 0 1 2 1 with fixed := { legalBits with b := true } }) [] ∧
    decode [0x62#8, 0x73#8, 0xF5#8, 0x08#8, 0x3F#8, 0xCA#8, 0x01#8] =
      .instr (.vpcmpw128 { regOps 1 0 1 2 1 with fixed := { legalBits with r := true } }) [] ∧
    decode [0x62#8, 0xE3#8, 0xF5#8, 0x08#8, 0x3F#8, 0xCA#8, 0x01#8] =
      .instr (.vpcmpw128 { regOps 1 0 1 2 1 with fixed := { legalBits with rHi := true } }) [] := by decide

/-- Section 2.2: the encodings that raise #UD while they are decoded. -/
theorem test_decode_invalid :
    decode [0x62#8, 0xF3#8, 0xF5#8, 0x68#8, 0x3F#8, 0xCA#8, 0x01#8] = .invalid .vectorLength ∧
    decode [0x62#8, 0xFB#8, 0xF5#8, 0x08#8, 0x3F#8, 0xCA#8, 0x01#8] = .invalid .reservedP0 ∧
    decode [0x62#8, 0xF7#8, 0xF5#8, 0x08#8, 0x3F#8, 0xCA#8, 0x01#8] = .invalid .reservedP0 ∧
    decode [0x62#8, 0xF3#8, 0xF1#8, 0x08#8, 0x3F#8, 0xCA#8, 0x01#8] = .invalid .fixedP1 ∧
    decode [0x62#8, 0xF0#8, 0xF5#8, 0x08#8, 0x3F#8, 0xCA#8, 0x01#8] = .invalid .reservedMap := by decide

/-- Section 2.2: LOCK, 66h and REX before 62h. -/
theorem test_decode_forbidden :
    decode [0xF0#8, 0x62#8, 0xF3#8, 0xF5#8, 0x08#8, 0x3F#8, 0xCA#8, 0x01#8] = .invalid .forbiddenPrefix ∧
    decode [0x66#8, 0x62#8, 0xF3#8, 0xF5#8, 0x08#8, 0x3F#8, 0xCA#8, 0x01#8] = .invalid .forbiddenPrefix ∧
    decode [0x48#8, 0x62#8, 0xF3#8, 0xF5#8, 0x08#8, 0x3F#8, 0xCA#8, 0x01#8] = .invalid .forbiddenPrefix := by decide

/-- Nine 66h before this family's 7 bytes make 16: too long, with z = 1 too; before an instruction of map 0F, a reserved
encoding (L'L = 11b, P1[2] = 0), or cut off, #UD (R112; log entry 17). -/
theorem test_decode_forbidden_length :
    decode (List.replicate 9 0x66#8 ++ [0x62#8, 0xF3#8, 0xF5#8, 0x08#8, 0x3F#8, 0xCA#8, 0x01#8]) = .tooLong ∧
    decode (List.replicate 8 0x66#8 ++ [0x62#8, 0xF3#8, 0xF5#8, 0x08#8, 0x3F#8, 0xCA#8, 0x01#8]) =
      .invalid .forbiddenPrefix ∧
    decode (List.replicate 9 0x66#8 ++ [0x62#8, 0xF1#8, 0x75#8, 0x08#8, 0x58#8, 0xC1#8]) = .invalid .forbiddenPrefix ∧
    decode (List.replicate 9 0x66#8 ++ [0x62#8, 0xF3#8, 0xF5#8, 0x88#8, 0x3F#8, 0xCA#8, 0x01#8]) = .tooLong ∧
    decode (List.replicate 9 0x66#8 ++ [0x62#8, 0xF3#8, 0xF5#8, 0x68#8, 0x3F#8, 0xCA#8, 0x01#8]) =
      .invalid .forbiddenPrefix ∧
    decode (List.replicate 9 0x66#8 ++ [0x62#8, 0xF3#8, 0xF1#8, 0x08#8, 0x3F#8, 0xCA#8, 0x01#8]) =
      .invalid .forbiddenPrefix ∧
    decode (List.replicate 9 0x66#8 ++ [0x62#8, 0xF3#8, 0xF5#8, 0x08#8, 0x3F#8, 0xCA#8]) = .invalid .forbiddenPrefix := by
  decide

/-- Section 2.2: the encodings that are refused by name. -/
theorem test_decode_refused :
    decode [0x62#8, 0xF3#8, 0x75#8, 0x08#8, 0x3F#8, 0xCA#8, 0x01#8] = .refused .byteCompare ∧
    decode [0x62#8, 0xF3#8, 0xF4#8, 0x08#8, 0x3F#8, 0xCA#8, 0x01#8] = .refused .otherPp ∧
    decode [0x62#8, 0xF2#8, 0xF5#8, 0x08#8, 0x3F#8, 0xCA#8, 0x01#8] = .refused .otherMap ∧
    decode [0x62#8, 0xF3#8, 0xF5#8, 0x08#8, 0x3D#8, 0xCA#8, 0x01#8] = .refused .otherOpcode ∧
    decode [0x64#8, 0x65#8, 0x62#8, 0xF3#8, 0xF5#8, 0x08#8, 0x3F#8, 0x08#8, 0x01#8] = .refused .repeatedPrefix ∧
    decode [0x90#8] = .refused .notEvex ∧ decode [0x62#8, 0xF3#8] = .refused .truncated := by decide

/-- Encoding gives section 2.1's bytes: R12 as a base needs SIB, 65 needs disp32. -/
theorem test_encode :
    encode (.vpcmpuw128 (ops 4 0 5 (.mem (.sib 12#4 0#2 4#4 .zero)) 4)) =
      [0x62#8, 0xD3#8, 0xD5#8, 0x08#8, 0x3E#8, 0x24#8, 0x24#8, 0x04#8] ∧
    encode (.vpcmpw256 (ops 2 1 10 (.mem (.base 3#4 (.disp32 65#32))) 2)) =
      [0x62#8, 0xF3#8, 0xAD#8, 0x29#8, 0x3F#8, 0x93#8, 0x41#8, 0x00#8, 0x00#8, 0x00#8, 0x02#8] := by decide

/-- A table word, here section 2.1's row 5 without its immediate, is read as R117 numbers it. -/
theorem test_table_word :
    decodeTableWord 48 0x62B395433EED = some (.vpcmpuw512 (regOps 5 3 29 21 0)) := by decide +kernel

/-- A table word is the next instruction a step runs: VPCMPW k1, xmm1, xmm2, 0 gives section 3.1's EQ cell. -/
theorem test_withFetchWord : kOf (step (launch.withFetchWord 48 0x62F3F5083FCA)) 1 = some 0x21 := by decide +kernel

/-! ### The six forms: section 3 (SRC1 = ZMM1, SRC2 = ZMM2, DEST all ones before) -/

theorem test_vpcmpw128_lt : kOf (exec (.vpcmpw128 (regOps 1 0 1 2 1)) launch) 1 = some 0x98 := by decide +kernel

/-- Bits 7:3 of the immediate are ignored: F9h acts as 1. -/
theorem test_vpcmpw128_imm : kOf (exec (.vpcmpw128 (regOps 1 0 1 2 0xF9)) launch) 1 = some 0x98 := by decide +kernel

theorem test_vpcmpw256_lt_masked :
    kOf (exec (.vpcmpw256 (regOps 1 2 1 2 1)) (launch.setK 2 0x0FF0)) 1 = some 0x590 := by decide +kernel

theorem test_vpcmpw256_le : kOf (exec (.vpcmpw256 (regOps 1 0 1 2 2)) launch) 1 = some 0xBDB9 := by decide +kernel

/-- Mask bits above lane 31 are not read. -/
theorem test_vpcmpw512_lt_masked :
    kOf (exec (.vpcmpw512 (regOps 1 2 1 2 1)) (launch.setK 2 0xFFFF0000FFFF0000)) 1 = some 0xFF000000 := by
  decide +kernel

theorem test_vpcmpw512_nlt_masked :
    kOf (exec (.vpcmpw512 (regOps 0 2 1 2 5)) (launch.setK 2 0xAAAAAAAA)) 0 = some 0xAA0A22 := by decide +kernel

theorem test_vpcmpuw128_lt : kOf (exec (.vpcmpuw128 (regOps 1 0 1 2 1)) launch) 1 = some 0x84 := by decide +kernel

theorem test_vpcmpuw128_nle_masked :
    kOf (exec (.vpcmpuw128 (regOps 1 2 1 2 6)) (launch.setK 2 0xA5)) 1 = some 0 := by decide +kernel

/-- M1: the 32 bytes of B16 at 10021h. -/
def m1 : List Nat :=
  [0x00, 0x00, 0x00, 0x00, 0x00, 0x80, 0xFF, 0x7F, 0x00, 0x00, 0x34, 0x12, 0x00, 0x80, 0x06, 0x00] ++
  [0xFF, 0xFF, 0xFF, 0x00, 0x00, 0x01, 0x00, 0x80, 0xFF, 0x7F, 0x00, 0x40, 0x00, 0xC0, 0x01, 0x00]

/-- M2's state, with A16 in YMM1: RBX = 10001h. -/
def m2 : State := withGpr (withBytes launch 0x10021#64 m1) 3 0x10001#64

/-- M2: an unaligned memory operand, disp8 times 32. -/
theorem test_vpcmpuw256_memory :
    kOf (exec (.vpcmpuw256 (ops 3 0 1 (.mem (.base 3#4 (.disp8 1#8))) 1)) m2) 3 = some 0x4584 := by decide +kernel

theorem test_vpcmpuw256_nle_masked :
    kOf (exec (.vpcmpuw256 (regOps 1 2 1 2 6)) (launch.setK 2 0x0FF0)) 1 = some 0x250 := by decide +kernel

theorem test_vpcmpuw512_nle : kOf (exec (.vpcmpuw512 (regOps 1 0 1 2 6)) launch) 1 = some 0xFF00A25A := by
  decide +kernel

/-- DEST = MASK: the old k7 is the writemask (R139). -/
theorem test_vpcmpuw512_dest_is_mask :
    kOf (exec (.vpcmpuw512 (regOps 7 7 31 31 7)) (launch.setK 7 0x123456789ABCDEF0)) 7 = some 0x9ABCDEF0 := by
  decide +kernel

/-! ### Addresses: section 4 -/

/-- M1: lane 5 of the operand is 1234h. -/
theorem test_m1_byte_order : lane (m2.memRead 0x10021#64 32) 5 = 0x1234#16 := by decide +kernel

/-- M3: R12 = 20000h, R9 = 10h, disp8 = -1 times 64. -/
theorem test_m3_compressed :
    (withGpr (withGpr launch 12 0x20000#64) 9 0x10#64).linearAddress .v512
      (ops 0 7 31 (.mem (.sib 12#4 2#2 9#4 (.disp8 0xFF#8))) 4) (.sib 12#4 2#2 9#4 (.disp8 0xFF#8)) = 0x20000#64 := by
  decide +kernel

/-- M4: the immediate byte counts in next_rip. -/
theorem test_m4_rip_relative :
    (launch.setRip 0x400000#64).linearAddress .v128 (ops 7 0 0 (.mem (.ripRel 256#32)) 0) (.ripRel 256#32) =
      0x40010B#64 := by decide +kernel

/-- M5: the address-size byte. -/
theorem test_m5_addr32 :
    (withGpr launch 0 0xFFFFFFFF00002000#64).linearAddress .v128
      { ops 1 0 1 (.mem (.base 0#4 .zero)) 1 with pre := { seg := none, addr32 := true } } (.base 0#4 .zero) =
        0x2000#64 ∧
    (withGpr launch 0 0xFFFFFFFF00002000#64).linearAddress .v128 (ops 1 0 1 (.mem (.base 0#4 .zero)) 1)
      (.base 0#4 .zero) = 0xFFFFFFFF00002000#64 := by decide +kernel

/-- M6: FS.base is added. -/
theorem test_m6_segment_base :
    (withGpr { launch with fsBase := 0x7F0000000000#64 } 0 0x40#64).linearAddress .v128
      { ops 1 0 1 (.mem (.base 0#4 .zero)) 1 with pre := { seg := some .fs, addr32 := false } } (.base 0#4 .zero) =
        0x7F0000000040#64 := by decide +kernel

/-! ### Exceptions: sections 2.2, 4 (M7), 5 and program 4 -/

/-- VPCMPW k2 {k7}, zmm30, [rax], 6. -/
def raxOps : Operands := ops 2 7 30 (.mem (.base 0#4 .zero)) 6

/-- VPCMPUW k4, xmm5, [rbp], 0. -/
def rbpOps : Operands := ops 4 0 5 (.mem (.base 5#4 (.disp8 0#8))) 0

/-- M7: #GP(0) through RAX, #SS(0) through RBP, and #GP(0) for an operand that leaves canonical space. -/
theorem test_m7_noncanonical :
    faultOf (exec (.vpcmpw512 raxOps) (withGpr launch 0 0x800000000000#64)) = some (record 13 (some 0#32)) ∧
    faultOf (exec (.vpcmpuw128 rbpOps) (withGpr launch 5 0x800000000000#64)) = some (record 12 (some 0#32)) ∧
    faultOf (exec (.vpcmpw512 raxOps) (withGpr launch 0 0x7FFFFFFFFFF0#64)) = some (record 13 (some 0#32)) := by
  decide +kernel

/-- #NM with CR0.TS = 1, but #UD where z = 1 as well. -/
theorem test_nm_and_ud :
    faultOf (exec (.vpcmpw128 (regOps 1 0 1 2 1)) { launch with cr0 := 0xE0000019#64 }) = some (record 7 none) ∧
    faultOf (exec (.vpcmpw128 { regOps 1 0 1 2 1 with fixed := { legalBits with z := true } })
      { launch with cr0 := 0xE0000019#64 }) = some (record 6 none) := by decide +kernel

/-- XCR0 = 07h and CR4.OSXSAVE = 0 raise #UD. -/
theorem test_ud_state :
    faultOf (exec (.vpcmpw128 (regOps 1 0 1 2 1)) { launch with xcr0 := 7#64 }) = some (record 6 none) ∧
    faultOf (exec (.vpcmpw128 (regOps 1 0 1 2 1)) { launch with cr4 := 0#64 }) = some (record 6 none) := by
  decide +kernel

/-- A part without AVX512VL: the 128-bit form raises #UD, the 512-bit form executes. -/
theorem test_avx512vl :
    faultOf (exec (.vpcmpw128 (regOps 1 0 1 2 1)) { launch with cfg := { launch.cfg with cpuid7Ebx := 0x40010000#32 } }) =
      some (record 6 none) ∧
    kOf (exec (.vpcmpw512 (regOps 0 0 0 0 0)) { launch with cfg := { launch.cfg with cpuid7Ebx := 0x40010000#32 } }) 0 =
      some 0xFFFFFFFF := by decide +kernel

/-- Program 4 at its second instruction: page 2000h is admitted, 3000h is not present, privilege level 3. -/
def program4 (suppress : Bool) : State :=
  let s := withBytes (withGpr launch 6 0x2FF8#64) 0x2FF8#64 [0x01, 0x00, 0x02, 0x00, 0x03, 0x00, 0x04, 0x00]
  suppressing
    { s with
      zmm := s.zmm.set 1 (words [1, 2, 3, 4, 5, 6, 7, 8])
      k := (s.k.set 1 0xF).set 2 0xAAAAAAAAAAAAAAAA
      cpl := 3#2
      map := [{ base := 0x2000, size := 0x1000, access := .ordinary, shared := false },
              { base := 0x3000, size := 0x1000, access := .faulting false false false, shared := false }]
      rip := 0x1007#64
      codeBase := 0x1000#64
      code := [0x62#8, 0xF3#8, 0xF5#8, 0x08#8, 0x3F#8, 0xCA#8, 0x01#8] ++
        [0x62#8, 0xF3#8, 0xF5#8, 0x09#8, 0x3F#8, 0x16#8, 0x00#8] }
    suppress

/-- With fault suppression: k2 = 0Fh, rip = 100Eh, final. -/
theorem test_program4_suppressed :
    kOf (step (program4 true)) 2 = some 0xF ∧
    (nextOf (step (program4 true))).map (fun t => (t.rip, t.atEnd)) = some (0x100E#64, true) := by decide +kernel

/-! ### Cases that meet the statements' hypotheses -/

/-- DecodeOfEncode: an encodable instruction of every shape of SRC2, one with wrong fixed bits among them. -/
theorem test_witness_decodeOfEncode :
    (Instr.vpcmpw128 (regOps 1 0 1 2 1)).encodable = true ∧ (Instr.vpcmpw512 raxOps).encodable = true ∧
    (Instr.vpcmpuw512 (ops 1 0 1 (.mem (.sib 12#4 2#2 9#4 (.disp8 0xFF#8))) 1)).encodable = true ∧
    (Instr.vpcmpuw256 (ops 1 0 1 (.mem (.sibNoBase 0#2 4#4 0#32)) 1)).encodable = true ∧
    (Instr.vpcmpuw256 (ops 1 0 1 (.mem (.ripRel 0#32)) 1)).encodable = true ∧
    (Instr.vpcmpw128 { regOps 1 0 1 2 1 with fixed := { legalBits with z := true, b := true } }).encodable = true := by
  decide

/-- DecodedInstrTakesItsLength: the longest instruction, 14 bytes; the shortest is `test_decode_vpcmpw128`. -/
theorem test_witness_decodedInstrTakesItsLength :
    decode [0x65#8, 0x67#8, 0x62#8, 0xF3#8, 0xF5#8, 0x08#8, 0x3F#8, 0x8C#8, 0x24#8, 1#8, 2#8, 3#8, 4#8, 9#8, 0xAA#8] =
      .instr (.vpcmpw128 { ops 1 0 1 (.mem (.sib 4#4 0#2 4#4 (.disp32 0x04030201#32))) 9 with
        pre := { seg := some .gs, addr32 := true } }) [0xAA#8] := by decide

/-- The same: 67h before the override, and the six overrides each alone. -/
theorem test_witness_prefixRun :
    PrefixRun [0x67#8, 0x64#8] { seg := some .fs, addr32 := true } ∧
    PrefixRun [0x64#8, 0x67#8] { seg := some .fs, addr32 := true } ∧ PrefixRun [] plain ∧
    PrefixRun [0x26#8] { seg := some .es, addr32 := false } ∧ PrefixRun [0x2E#8] { seg := some .cs, addr32 := false } ∧
    PrefixRun [0x36#8] { seg := some .ss, addr32 := false } ∧ PrefixRun [0x3E#8] { seg := some .ds, addr32 := false } ∧
    PrefixRun [0x65#8] { seg := some .gs, addr32 := false } ∧ PrefixRun [0x67#8] { seg := none, addr32 := true } ∧
    decode [0x67#8, 0x64#8, 0x62#8, 0xF3#8, 0xF5#8, 0x08#8, 0x3F#8, 0x08#8, 0x01#8] =
      .instr (.vpcmpw128 { ops 1 0 1 (.mem (.base 0#4 .zero)) 1 with pre := { seg := some .fs, addr32 := true } }) [] ∧
    decode [0x67#8, 0x64#8, 0x62#8, 0xF7#8, 0xF5#8, 0x08#8, 0x3F#8, 0x08#8, 0x01#8] = .invalid .reservedP0 := by
  refine ⟨?_, ?_, ?_, ?_, ?_, ?_, ?_, ?_, ?_, ?_, ?_⟩ <;> decide

/-- RepeatedPrefixRefused: two overrides with 67h between, and two 67h with an override between. -/
theorem test_witness_repeatedPrefixRefused :
    (∀ p ∈ ([0x64#8, 0x67#8, 0x65#8] : List Byte), AdmittedByte p) ∧
    List.count 0x67#8 [0x64#8, 0x67#8, 0x65#8] + 2 ≤ [0x64#8, 0x67#8, 0x65#8].length ∧
    (∀ p ∈ ([0x67#8, 0x64#8, 0x67#8] : List Byte), AdmittedByte p) ∧
    2 ≤ List.count 0x67#8 [0x67#8, 0x64#8, 0x67#8] ∧
    decode [0x64#8, 0x67#8, 0x65#8, 0x62#8] = .refused .repeatedPrefix ∧
    decode [0x67#8, 0x64#8, 0x67#8, 0xF0#8] = .refused .repeatedPrefix := by decide

/-- TableRowSelectsForm: a tail of six bytes, and a word that matches row 1 although z = 1. -/
theorem test_witness_tableRowSelectsForm :
    6 ≤ ([1#8, 0#8, 0#8, 0#8, 0#8, 0#8] : List Byte).length ∧
    word48 0x62#8 0xF3#8 0xF5#8 0x88#8 0x3F#8 0xCA#8 &&& tableMask =
      (Instr.vpcmpw128 (regOps 1 0 1 2 1)).tableMatch := by decide

/-- NeighbourEncodings: six bytes after ModRM, the most SIB, displacement and immediate take; with five, truncated. -/
theorem test_witness_neighbourEncodings :
    decode [0x62#8, 0xF3#8, 0xF5#8, 0x08#8, 0x3F#8, 0x8C#8, 0x24#8, 1#8, 2#8, 3#8, 4#8, 9#8] =
      .instr (.vpcmpw128 (ops 1 0 1 (.mem (.sib 4#4 0#2 4#4 (.disp32 0x04030201#32))) 9)) [] ∧
    decode [0x62#8, 0xF3#8, 0xF5#8, 0x08#8, 0x3F#8, 0x8C#8, 0x24#8, 1#8, 2#8, 3#8, 4#8] = .refused .truncated := by
  decide

/-- The vector of an exception. -/
def vectorOf (o : Host.Outcome State Fault Refusal) : Option Nat :=
  match faultOf o with
  | some (.raised r) => some r.vector
  | some .stuckUnlisted => none
  | some .stuckDevice => none
  | some .stuckWrap => none
  | none => none

/-- The launch state with bytes as its program. -/
def running (bs : List Nat) : State := launch.loadCode (bs.map (BitVec.ofNat 8))

/-- ForbiddenPrefixRaisesUd: 64h, REX.W, 67h before this family's bytes, 10 in all; FS, 67h, 66h and six more, 16; and
66h before another instruction. -/
theorem test_witness_forbiddenPrefixRaisesUd :
    (running [0x64, 0x48, 0x67, 0x62, 0xF3, 0xF5, 0x08, 0x3F, 0xCA, 0x01]).fetchRefusal = none ∧
    ForbiddenBefore 3 (running [0x64, 0x48, 0x67, 0x62, 0xF3, 0xF5, 0x08, 0x3F, 0xCA, 0x01]).code
      [0xF3#8, 0xF5#8, 0x08#8, 0x3F#8, 0xCA#8, 0x01#8] ∧
    vectorOf (step (running [0x64, 0x48, 0x67, 0x62, 0xF3, 0xF5, 0x08, 0x3F, 0xCA, 0x01])) = some 6 ∧
    vectorOf (step (running ([0x64, 0x67] ++ List.replicate 7 0x66 ++ [0x62, 0xF3, 0xF5, 0x08, 0x3F, 0xCA, 0x01]))) =
      some 13 ∧
    ForbiddenBefore 9 ([0x64#8, 0x67#8] ++ List.replicate 7 0x66#8 ++ [0x62#8, 0xF3#8, 0xF5#8, 0x08#8, 0x3F#8, 0xCA#8, 0x01#8])
      [0xF3#8, 0xF5#8, 0x08#8, 0x3F#8, 0xCA#8, 0x01#8] ∧
    vectorOf (step (running [0x66, 0x62, 0xF1, 0x75, 0x08, 0x58, 0xC1])) = some 6 ∧
    ForbiddenBefore 1 [0x66#8, 0x62#8, 0xF1#8] [0xF1#8] :=
  ⟨by decide +kernel, ⟨[0x64#8], 0x48#8, [0x67#8], by decide +kernel⟩, by decide +kernel, by decide +kernel,
    ⟨[0x64#8, 0x67#8], 0x66#8, List.replicate 6 0x66#8, by decide +kernel⟩, by decide +kernel,
    ⟨[], 0x66#8, [], by decide +kernel⟩⟩

/-- The six completion statements: every form is ready, a register and a memory source are readable. -/
theorem test_witness_completes_registers :
    (∀ vl ∈ [VecLen.v128, .v256, .v512], launch.Ready vl) ∧ (regOps 1 2 1 2 1).fixed.legal = true ∧
    launch.SourceReadable .v128 (regOps 1 2 1 2 1) ∧ launch.SourceReadable .v256 (regOps 1 2 1 2 1) ∧
    launch.SourceReadable .v512 (regOps 1 2 1 2 1) :=
  ⟨by decide +kernel, rfl, trivial, trivial, trivial⟩

/-- An operand that can be read. -/
theorem readable {s : State} {vl : VecLen} {o : Operands} {m : MemOperand} (e : o.src2 = .mem m)
    (hw : (s.linearAddress vl o m).toNat + vl.bytes ≤ 2 ^ 64)
    (h : ((s.countedBytes vl o.mask (s.linearAddress vl o m)).all fun a => decide (s.ByteReadable a)) = true) :
    s.SourceReadable vl o := by
  unfold State.SourceReadable
  rw [e]
  exact ⟨hw, all_of _ h⟩

/-- The same with memory sources: M2's operand, and with 64 bytes the last ones below 2^64. -/
theorem test_witness_completes_memory :
    m2.SourceReadable .v128 (ops 3 0 1 (.mem (.base 3#4 (.disp8 1#8))) 1) ∧
    m2.SourceReadable .v256 (ops 3 0 1 (.mem (.base 3#4 (.disp8 1#8))) 1) ∧
    (withGpr launch 0 0xFFFFFFFFFFFFFFC0#64).SourceReadable .v512 raxOps :=
  ⟨readable rfl (by decide +kernel) (by decide +kernel), readable rfl (by decide +kernel) (by decide +kernel),
    readable rfl (by decide +kernel) (by decide +kernel)⟩

/-- FrameOfEveryForm, DestinationWrittenWhole: a form without and one with a writemask, from registers and memory. -/
theorem test_witness_next :
    (∃ t, exec (.vpcmpw128 (regOps 1 0 1 2 1)) launch = .next t) ∧
    (∃ t, exec (.vpcmpw512 raxOps) launch = .next t) ∧
    (regOps 1 0 1 2 1).mask = 0#3 ∧ raxOps.mask ≠ raxOps.dest :=
  ⟨next_of_isSome (by decide +kernel), next_of_isSome (by decide +kernel), rfl, by decide⟩

/-- VectorBitsAboveLengthIgnored: ZMM1 with A8 in its low 128 bits and zeros above, where the launch state has words. -/
theorem test_witness_vectorBitsAboveLengthIgnored :
    (∃ t, exec (.vpcmpw128 (regOps 1 0 1 2 1)) launch = .next t) ∧
    (∀ (n : BitVec 5) (j : Nat), j < VecLen.bits .v128 →
      (({ launch with zmm := launch.zmm.set 1 (words (a32.take 8)) } : State).zmmReg n).getLsbD j =
        (launch.zmmReg n).getLsbD j) ∧
    launch.zmm.set 1 (words (a32.take 8)) ≠ launch.zmm :=
  ⟨next_of_isSome (by decide +kernel), by decide +kernel, by decide +kernel⟩

/-- MaskBitsAboveLanesIgnored: k2 = A5h against the same low byte under ones. -/
theorem test_witness_maskBitsAboveLanesIgnored :
    (∃ t, exec (.vpcmpw128 (regOps 1 2 1 2 1)) (launch.setK 2 0xA5) = .next t) ∧ (regOps 1 2 1 2 1).mask ≠ 0#3 ∧
    ∀ j < VecLen.lanes .v128, (0xFFFFFFFFFFFFFFA5 : Nat).testBit j = ((launch.setK 2 0xA5).kReg 2).testBit j :=
  ⟨next_of_isSome (by decide +kernel), by decide, by decide +kernel⟩

/-- PredicateNumbers: the last lane of each length. -/
theorem test_witness_predicateNumbers :
    7 < VecLen.lanes .v128 ∧ 15 < VecLen.lanes .v256 ∧ 31 < VecLen.lanes .v512 := by decide

/-- LawSignedness: lanes 0 and 7 are active under A5h, lane 7 the last of the 128-bit form. -/
theorem test_witness_lawSignedness :
    (activeOnes .v128 (some 0xA5)).testBit 0 = true ∧ (activeOnes .v128 (some 0xA5)).testBit 7 = true ∧
    (activeOnes .v512 none).testBit 31 = true := by decide +kernel

/-- UdExactlyWhen: in 64-bit mode, a state of each side. -/
theorem test_witness_udExactlyWhen :
    launch.mode64 = true ∧ ({ launch with cr4 := 0#64 } : State).mode64 = true ∧
    ({ launch with xcr0 := 7#64 } : State).mode64 = true := by decide +kernel

/-- NmAfterUd. -/
theorem test_witness_nmAfterUd :
    ({ launch with cr0 := 0xE0000019#64 } : State).evexEnabled = true ∧
    ({ launch with cr0 := 0xE0000019#64 } : State).features (Instr.vpcmpw512 raxOps).vecLen = true ∧
    (Instr.vpcmpw512 raxOps).operands.fixed.legal = true ∧
    ({ launch with cr0 := 0xE0000019#64 } : State).cr0.getLsbD 3 = true := by decide +kernel

/-- OtherModesRefused: one state for each bit that leaves 64-bit mode. -/
theorem test_witness_otherModesRefused :
    ({ launch with cr0 := 0xE0000010#64 } : State).cr0.getLsbD 0 = false ∧
    ({ launch with cr0 := 0x60000011#64 } : State).cr0.getLsbD 31 = false ∧
    ({ launch with efer := 0#64 } : State).efer.getLsbD 10 = false ∧ ({ launch with csL := false } : State).csL = false ∧
    refusalOf (exec (.vpcmpw128 (regOps 1 0 1 2 1)) State.powerUp) = some .notMode64 := by decide +kernel

/-- RAX as the base is no stack access. -/
theorem rax_not_stack : ¬StackAccess raxOps (.base 0#4 .zero) := by
  rintro ⟨-, -, ⟨b, d, h, hb⟩ | ⟨b, sc, i, d, h, -⟩⟩
  · cases h
    revert hb
    decide
  · cases h

/-- RBP holds the first address that is not canonical. -/
def rbpHigh : State := withGpr launch 5 0x800000000000#64

/-- RAX is 16 bytes below it. -/
def raxEdge : State := withGpr launch 0 0x7FFFFFFFFFF0#64

/-- NonCanonicalOperandFaults through the stack segment. -/
theorem test_witness_nonCanonicalOperandFaults_ss :
    rbpHigh.Ready .v128 ∧ rbpOps.fixed.legal = true ∧ rbpOps.src2 = .mem (.base 5#4 (.disp8 0#8)) ∧
    StackAccess rbpOps (.base 5#4 (.disp8 0#8)) ∧
    ∃ a ∈ rbpHigh.countedBytes .v128 rbpOps.mask (rbpHigh.linearAddress .v128 rbpOps (.base 5#4 (.disp8 0#8))),
      isCanonical rbpHigh.cfg.vaBits a = false :=
  ⟨by decide +kernel, rfl, rfl, ⟨by decide, by decide, .inl ⟨_, _, rfl, by decide⟩⟩, any_of _ (by decide +kernel)⟩

/-- NonCanonicalOperandFaults elsewhere: only the operand's last bytes are not canonical. -/
theorem test_witness_nonCanonicalOperandFaults_gp :
    raxEdge.Ready .v512 ∧ raxOps.fixed.legal = true ∧ raxOps.src2 = .mem (.base 0#4 .zero) ∧
    ¬StackAccess raxOps (.base 0#4 .zero) ∧
    ∃ a ∈ raxEdge.countedBytes .v512 raxOps.mask (raxEdge.linearAddress .v512 raxOps (.base 0#4 .zero)),
      isCanonical raxEdge.cfg.vaBits a = false :=
  ⟨by decide +kernel, rfl, rfl, rax_not_stack, any_of _ (by decide +kernel)⟩

/-- The second instruction of program 4. -/
def rsiOps : Operands := ops 2 1 1 (.mem (.base 6#4 .zero)) 0

/-- PageFaultIsRaised: program 4 without fault suppression, whose bytes answer ok or code 04h. -/
theorem test_witness_pageFaultIsRaised :
    (program4 false).Ready .v128 ∧ rsiOps.fixed.legal = true ∧ rsiOps.src2 = .mem (.base 6#4 .zero) ∧
    ((program4 false).linearAddress .v128 rsiOps (.base 6#4 .zero)).toNat + VecLen.bytes .v128 ≤ 2 ^ 64 ∧
    (∀ a ∈ (program4 false).countedBytes .v128 rsiOps.mask ((program4 false).linearAddress .v128 rsiOps (.base 6#4 .zero)),
      isCanonical (program4 false).cfg.vaBits a = true ∧
        ((program4 false).answer a = .ok ∨ ∃ code, (program4 false).answer a = .pageFault code)) ∧
    ∃ a ∈ (program4 false).countedBytes .v128 rsiOps.mask ((program4 false).linearAddress .v128 rsiOps (.base 6#4 .zero)),
      (program4 false).answer a ≠ .ok := by
  refine ⟨by decide +kernel, rfl, rfl, by decide +kernel, ?_, any_of _ (by decide +kernel)⟩
  have h : ∀ a ∈ (program4 false).countedBytes .v128 rsiOps.mask
      ((program4 false).linearAddress .v128 rsiOps (.base 6#4 .zero)),
      isCanonical (program4 false).cfg.vaBits a = true ∧
        ((program4 false).answer a = .ok ∨ (program4 false).answer a = .pageFault 4#32) :=
    all_of _ (by decide +kernel)
  exact fun a ha => ⟨(h a ha).1, (h a ha).2.imp id fun e => ⟨_, e⟩⟩

/-- Section 5's error codes: not present at level 3 and 0, and present but not readable at level 3. -/
theorem test_page_fault_codes :
    (program4 false).answer 0x3000#64 = .pageFault 4#32 ∧
    ({ program4 false with cpl := 0#2 } : State).answer 0x3000#64 = .pageFault 0#32 ∧
    ({ mapped launch .supervisor with cpl := 3#2 } : State).answer 0#64 = .pageFault 5#32 ∧
    (mapped launch .supervisor).answer 0#64 = .ok := by decide +kernel

/-- A launch memory with a hole below 1000h, then a region of each kind; the supervisor one overlaps the next. -/
def regions : State :=
  { launch with
    map := [{ base := 0x1000, size := 0x1000, access := .ordinary, shared := true },
            { base := 0x2000, size := 0x1800, access := .supervisor, shared := false },
            { base := 0x3000, size := 0x1000, access := .faulting true false true, shared := false },
            { base := 0x4000, size := 0x1000, access := .device, shared := false }] }

/-- PageFaultCodeBits: the edges of the regions, at level 0 and at level 3; the first region that holds a byte decides. -/
theorem test_witness_regions :
    [0xFFF#64, 0x1000#64, 0x1FFF#64, 0x2000#64, 0x37FF#64, 0x3800#64, 0x4FFF#64, 0x5000#64].map regions.answer =
      [.nothing, .ok, .ok, .ok, .ok, .pageFault 0x21#32, .device, .nothing] ∧
    [0x1FFF#64, 0x2000#64, 0x3800#64].map ({ regions with cpl := 3#2 } : State).answer =
      [.ok, .pageFault 5#32, .pageFault 0x25#32] ∧
    [0xFFF#64, 0x1000#64, 0x1FFF#64, 0x2000#64].map regions.sharedAt = [false, true, true, false] ∧
    (∀ r ∈ regions.map, ¬r.Holds 0xFFF#64) ∧
    ∀ q ∈ regions.map.take 2, ¬q.Holds 0x3800#64 := by decide +kernel

/-- StuckOperands: an operand that wraps, an empty launch memory, device memory. -/
def stuckStates : List State :=
  [withGpr launch 0 0xFFFFFFFFFFFFFFC1#64, { launch with map := [] }, mapped launch .device]

/-- In each the operand is canonical, and VPCMPW k2 {k7}, zmm30, [rax], 6 is stuck under the name R62, R63, R59 give. -/
theorem test_witness_stuckOperands :
    (∀ s ∈ stuckStates, s.Ready .v512 ∧ ((s.countedBytes .v512 raxOps.mask (s.linearAddress .v512 raxOps (.base 0#4 .zero))).all
      fun a => isCanonical s.cfg.vaBits a) = true) ∧
    stuckStates.map (fun s => faultOf (exec (.vpcmpw512 raxOps) s)) =
      [some .stuckWrap, some .stuckUnlisted, some .stuckDevice] := by
  decide +kernel

/-- VPCMPW k1 {k2}, xmm1, [rax], 7. -/
def maskedOps : Operands := ops 1 2 1 (.mem (.base 0#4 .zero)) 7

/-- Fault suppression, k2's low byte 0 under ones, and a launch memory that says nothing. -/
def allOff : State := suppressing { launch.setK 2 0xFFFFFFFFFFFFFF00 with map := [] } true

/-- AllLanesOffNeverFaults; DEST is 0. -/
theorem test_witness_allLanesOffNeverFaults :
    allOff.Ready .v128 ∧ maskedOps.fixed.legal = true ∧ maskedOps.src2 = .mem (.base 0#4 .zero) ∧
    allOff.cfg.faultSuppression = true ∧ maskedOps.mask ≠ 0#3 ∧
    (∀ j < VecLen.lanes .v128, (allOff.kReg maskedOps.mask).testBit j = false) ∧
    (allOff.linearAddress .v128 maskedOps (.base 0#4 .zero)).toNat + VecLen.bytes .v128 ≤ 2 ^ 64 ∧
    kOf (exec (.vpcmpw128 maskedOps) allOff) 1 = some 0 := by decide +kernel

/-- OnlyFiveExceptions: a step that raises each of the five, and #GP for 16 bytes. -/
theorem test_witness_onlyFiveExceptions :
    vectorOf (step (running [0x62, 0xF3, 0xF5, 0x88, 0x3F, 0xCA, 0x01])) = some 6 ∧
    vectorOf (step ({ running [0x62, 0xF3, 0xF5, 0x08, 0x3F, 0xCA, 0x01] with cr0 := 0xE0000019#64 })) = some 7 ∧
    vectorOf (step (withGpr (running [0x62, 0xF3, 0xD5, 0x08, 0x3E, 0x65, 0x00, 0x00]) 5 0x800000000000#64)) = some 12 ∧
    vectorOf (step (withGpr (running [0x62, 0xF3, 0x8D, 0x47, 0x3F, 0x10, 0x06]) 0 0x800000000000#64)) = some 13 ∧
    vectorOf (step (program4 false)) = some 14 := by decide +kernel

/-- Bytes that another agent may write, one of them read before: three of its location's writes have been seen. -/
def sharedState : State :=
  { launch with
    map := [{ base := 0, size := 2 ^ 47, access := .ordinary, shared := true }]
    seen := [(0x10021, 3)] }

/-- MemReadLittleEndian: a completed read of shared bytes moves no place back, here 3 at 10021h and 0 at 10022h; with a
private operand nothing is remembered. -/
theorem test_witness_memReadLittleEndian :
    (withGpr sharedState 3 0x10001#64).seen.wf = true ∧
    (withGpr sharedState 3 0x10001#64).sharedAt 0x10021#64 = true ∧
    (withGpr sharedState 3 0x10001#64).seenAt 0x10021#64 = 3 ∧ (withGpr sharedState 3 0x10001#64).seenAt 0x10022#64 = 0 ∧
    (withGpr sharedState 3 0x10001#64).memoryCheck .v256 (ops 3 0 1 (.mem (.base 3#4 (.disp8 1#8))) 1)
      (.base 3#4 (.disp8 1#8)) = none ∧
    m2.sharedAt 0x10022#64 = false ∧ m2.byteAt 0x10026#64 = 0x80#8 ∧
    (nextOf (exec (.vpcmpuw256 (ops 3 0 1 (.mem (.base 3#4 (.disp8 1#8))) 1)) m2)).map (fun t => (t.seen, t.draws)) =
      some ([], 1) := by decide +kernel

/-- Such a state completes whatever the free values are. -/
theorem test_witness_shared_completes :
    ∃ t, exec (.vpcmpuw256 (ops 3 0 1 (.mem (.base 3#4 (.disp8 1#8))) 1)) (withGpr sharedState 3 0x10001#64) = .next t :=
  ⟨_, rfl⟩

/-- A part with 32-bit mask registers: a write keeps 32 bits, and the 512-bit form's result fits (R8). -/
theorem test_max_kl :
    ({ launch with cfg := { launch.cfg with maxKl := 32, maxKl_ge := by decide } }.setK 2 0x123456789).kReg 2 = 0x23456789 ∧
    kOf (exec (.vpcmpuw512 (regOps 1 0 1 2 6)) { launch with cfg := { launch.cfg with maxKl := 32, maxKl_ge := by decide } }) 1 =
      some 0xFF00A25A := by decide +kernel

/-- RipRelativeAddress, MemReadLittleEndian: the hypotheses at the ends of their ranges. -/
theorem test_witness_addresses :
    (ops 7 0 0 (.mem (.ripRel 256#32)) 0).pre.addr32 = false ∧ VecLen.bytes .v512 ≤ 64 ∧ 2 * 31 + 1 < VecLen.bytes .v512 := by
  decide

/-- PrivateOperandNeedsNoOracle, PrivilegeDoesNotMatter: M2. -/
theorem test_witness_private_and_privilege :
    m2.PrivateOperand .v256 (ops 3 0 1 (.mem (.base 3#4 (.disp8 1#8))) 1) ∧ (∀ r ∈ m2.map, r.access ≠ .supervisor) ∧
    ∃ t, exec (.vpcmpuw256 (ops 3 0 1 (.mem (.base 3#4 (.disp8 1#8))) 1)) m2 = .next t :=
  ⟨(by decide +kernel : ∀ i < VecLen.bytes .v256, m2.sharedAt (byteAddr (m2.linearAddress .v256
      (ops 3 0 1 (.mem (.base 3#4 (.disp8 1#8))) 1) (.base 3#4 (.disp8 1#8))) i) = false),
    by decide +kernel, next_of_isSome (by decide +kernel)⟩

/-- StepRunsTheDecodedInstr: program 1's first two instructions, at the second. -/
def program1 : State :=
  { launch with
    rip := 0x401007#64
    codeBase := 0x401000#64
    code := [0x62#8, 0xF3#8, 0xFD#8, 0x08#8, 0x3F#8, 0xC9#8, 0x05#8] ++
      [0x62#8, 0xF3#8, 0xFD#8, 0x09#8, 0x3F#8, 0xD2#8, 0x02#8] }

theorem test_witness_stepRunsTheDecodedInstr :
    program1.mode64 = true ∧ program1.codeRegionOk = true ∧ program1.atProgramPoint = true ∧ program1.atEnd = false ∧
    decode (program1.code.drop program1.ripOffset) = .instr (.vpcmpw128 (regOps 2 1 0 2 2)) [] := by decide +kernel

/-- StepKeepsLaunchPremises, StepAdvancesByLength: the same state, whose step completes. -/
theorem test_witness_stepKeepsLaunchPremises : program1.LaunchOk ∧ ∃ t, step program1 = .next t :=
  ⟨⟨by decide +kernel, by decide +kernel, by decide +kernel, by decide +kernel, by decide +kernel, by decide +kernel,
    by decide +kernel, by decide +kernel, by decide +kernel⟩, next_of_isSome (by decide +kernel)⟩

/-- StepOutsideTheProgram: a region whose end is not canonical, RIP inside an instruction, RIP at the end. -/
theorem test_witness_stepOutsideTheProgram :
    (∀ s ∈ [{ program1 with codeBase := 0x7FFFFFFFFFF2#64 }, program1.setRip 0x401001#64, program1.setRip 0x40100E#64],
      s.mode64 = true) ∧
    [{ program1 with codeBase := 0x7FFFFFFFFFF2#64 }, program1.setRip 0x401001#64, program1.setRip 0x40100E#64].map
      (fun s => refusalOf (step s)) = [some .codeRegion, some .ripOutsideProgram, some .endOfRun] := by decide +kernel

/-- StepOutsideTheProgram: the points of program 1, from its instructions' lengths, and a region at the top of its half. -/
theorem test_witness_programPoints :
    ((List.range 16).filter fun n => (program1.setRip (0x401000#64 + BitVec.ofNat 64 n)).atProgramPoint) = [0, 7, 14] ∧
    DecodesTo program1.code [.vpcmpw128 (regOps 1 0 0 1 5), .vpcmpw128 (regOps 2 1 0 2 2)] [] ∧
    { program1 with codeBase := 0x7FFFFFFFFFF1#64 }.codeRegionOk = true ∧
    { program1 with codeBase := 0xFFFF800000000000#64 }.codeRegionOk = true ∧
    { program1 with codeBase := 0xFFFF7FFFFFFFFFFF#64 }.codeRegionOk = false :=
  ⟨by decide +kernel, ⟨program1.code.drop 7, by decide +kernel, ⟨[], by decide +kernel, rfl⟩⟩, by decide +kernel, by decide +kernel,
    by decide +kernel⟩

/-- StepAtOtherBytes: an invalid encoding, one of 16 bytes, another instruction. -/
theorem test_witness_stepAtOtherBytes :
    (∀ s ∈ [running [0x62, 0xF3, 0xF5, 0x68, 0x3F, 0xCA, 0x01],
        running [0x66, 0x66, 0x66, 0x66, 0x66, 0x66, 0x66, 0x66, 0x66, 0x62, 0xF3, 0xF5, 0x08, 0x3F, 0xCA, 0x01],
        running [0x90]], s.fetchRefusal = none) ∧
    (running [0x62, 0xF3, 0xF5, 0x68, 0x3F, 0xCA, 0x01]).fetch = .invalid .vectorLength ∧
    (running [0x66, 0x66, 0x66, 0x66, 0x66, 0x66, 0x66, 0x66, 0x66, 0x62, 0xF3, 0xF5, 0x08, 0x3F, 0xCA, 0x01]).fetch =
      .tooLong ∧
    (running [0x90]).fetch = .refused .notEvex := by decide +kernel

/-- PseudoOpsExpand: VPCMPNLEUW assembles to immediate 6. -/
theorem test_witness_pseudoOpsExpand :
    pseudoExpand .unsigned .v128 .nle (regOps 1 0 1 2 0) = some (.vpcmpuw128 (regOps 1 0 1 2 6)) ∧
    pseudoName .unsigned .nle = some "VPCMPNLEUW" ∧ pseudoExpand .signed .v256 .always (regOps 1 0 1 2 0) = none := by
  decide

end Sys2Proof.Tests
end

section
/-! SUPPORT. What a decoded instruction takes from the bytes, the points of a program, what a step that completes did,
and the statements of 00_scope.md: the launch premises are kept (R234), other modes are refused (R3). -/

namespace Sys2Proof

/-! ### The bytes an instruction takes (R83) -/

@[simp] theorem Instr.length_ofForm (sg : Signedness) (vl : VecLen) (o : Operands) :
    (Instr.ofForm sg vl o).length = o.length := by cases sg <;> cases vl <;> rfl

theorem Instr.length_pos (i : Instr) : 0 < i.length := Nat.succ_pos _

/-- The EVEX part takes what the prefixes and 62h leave of the instruction's length. -/
theorem decodeEvex_takes_length {pre : Prefixes} {bs rest : List Byte} {i : Instr}
    (h : decodeEvex pre bs = .instr i rest) : ∃ u, bs = u ++ rest ∧ i.length = pre.length + 1 + u.length := by
  obtain ⟨p0, p1, p2, op, modrm, tail, sg, vl, src2, imm8, rfl, -, -, -, -, -, -, -, hs, rfl⟩ := decodeEvex_instr h
  obtain ⟨-, u, rfl, hu⟩ := takeSource2_some hs
  refine ⟨p0 :: p1 :: p2 :: op :: modrm :: (u ++ [imm8]), by simp, ?_⟩
  simp only [Instr.length_ofForm, Operands.length, operandsOf, List.length_cons, List.length_append, List.length_nil]
  omega

/-- The bytes before the rest are as many as the instruction is long. -/
theorem decode_takes_length {bs rest : List Byte} {i : Instr} (h : decode bs = .instr i rest) :
    ∃ u, bs = u ++ rest ∧ u.length = i.length := by
  obtain ⟨pb, pre, t, rfl, hpb, ht⟩ := decode_instr h
  obtain ⟨u, rfl, hu⟩ := decodeEvex_takes_length ht
  refine ⟨pb ++ 0x62#8 :: u, by simp, ?_⟩
  simp only [List.length_append, List.length_cons]
  omega

theorem decode_rest {bs rest : List Byte} {i : Instr} (h : decode bs = .instr i rest) : rest = bs.drop i.length := by
  obtain ⟨u, rfl, hu⟩ := decode_takes_length h
  rw [← hu, List.drop_left]

theorem decode_length {bs rest : List Byte} {i : Instr} (h : decode bs = .instr i rest) :
    bs.length = i.length + rest.length := by
  obtain ⟨u, rfl, hu⟩ := decode_takes_length h
  rw [← hu, List.length_append]

namespace Machine

/-! ### The points of a program (R234) -/

@[simp] theorem startsAt_zero (fuel : Nat) (bs : List Byte) : startsAt fuel bs 0 = true := by
  cases fuel <;> rfl

/-- An offset after the front is a point when an instruction stands at the front and the offset is a point after it. -/
theorem startsAt_succ_iff {fuel off : Nat} {bs : List Byte} (hpos : 0 < off) :
    startsAt (fuel + 1) bs off = true ↔ ∃ i rest, decode bs = .instr i rest ∧ i.length ≤ off ∧
      startsAt fuel rest (off - i.length) = true := by
  obtain ⟨n, rfl⟩ := Nat.exists_eq_add_of_lt hpos
  cases hd : decode bs <;> simp [startsAt, hd]

/-- With fuel for every byte, the end of the instruction at a point is a point. -/
theorem startsAt_add_length {fuel off : Nat} {bs rest : List Byte} {i : Instr} (hfuel : bs.length ≤ fuel)
    (hat : startsAt fuel bs off = true) (hd : decode (bs.drop off) = .instr i rest) :
    startsAt fuel bs (off + i.length) = true := by
  induction fuel generalizing bs off with
  | zero =>
    have hlen := decode_length hd
    have := i.length_pos
    simp only [List.length_drop] at hlen
    omega
  | succ f ih =>
    rcases Nat.eq_zero_or_pos off with rfl | hpos
    · rw [List.drop_zero] at hd
      rw [Nat.zero_add]
      exact (startsAt_succ_iff i.length_pos).2 ⟨i, rest, hd, le_refl _, by simp⟩
    · obtain ⟨j, r, hj, hle, hat'⟩ := (startsAt_succ_iff hpos).1 hat
      have hlen := decode_length hj
      have := j.length_pos
      have hdrop : r.drop (off - j.length) = bs.drop off := by
        rw [decode_rest hj, List.drop_drop, Nat.add_sub_cancel' hle]
      have hnext := ih (by omega) hat' (hdrop ▸ hd)
      rw [← Nat.sub_add_comm hle] at hnext
      exact (startsAt_succ_iff (Nat.add_pos_left hpos _)).2 ⟨j, r, hj, Nat.le_add_right_of_le hle, hnext⟩

theorem State.atProgramPoint_iff (s : State) :
    s.atProgramPoint = true ↔ s.ripOffset ≤ s.code.length ∧ startsAt s.code.length s.code s.ripOffset = true := by
  simp [State.atProgramPoint]

theorem State.code_length_lt {s : State} (h : s.codeRegionOk = true) : s.code.length < 2 ^ 64 := by
  simp only [State.codeRegionOk, Bool.and_eq_true, decide_eq_true_eq] at h
  omega

/-- A fetched instruction lies inside the code region. -/
theorem State.fetch_inside {s : State} {i : Instr} {rest : List Byte} (hp : s.atProgramPoint = true)
    (hf : s.fetch = .instr i rest) : s.ripOffset + i.length ≤ s.code.length := by
  have hle := ((s.atProgramPoint_iff).1 hp).1
  have hlen := decode_length hf
  rw [List.length_drop] at hlen
  omega

/-- RIP's offset moves with RIP, as long as it does not wrap. -/
theorem State.ripOffset_advance {s : State} {n : Nat} (h : s.ripOffset + n < 2 ^ 64) :
    (s.setRip (s.rip + BitVec.ofNat 64 n)).ripOffset = s.ripOffset + n := by
  have hsub : s.rip + BitVec.ofNat 64 n - s.codeBase = (s.rip - s.codeBase) + BitVec.ofNat 64 n :=
    add_sub_right_comm _ _ _
  rw [State.ripOffset] at h
  simp only [State.ripOffset, State.setRip_rip, State.setRip_codeBase, hsub, BitVec.toNat_add, BitVec.toNat_ofNat]
  omega

/-- Past the instruction at a program point stands the next one (R234). -/
theorem State.atProgramPoint_advance {s : State} {i : Instr} {rest : List Byte} (hr : s.codeRegionOk = true)
    (hp : s.atProgramPoint = true) (hf : s.fetch = .instr i rest) :
    (s.setRip (s.rip + BitVec.ofNat 64 i.length)).atProgramPoint = true := by
  have hin := s.fetch_inside hp hf
  have hoff := s.ripOffset_advance (Nat.lt_of_le_of_lt hin (State.code_length_lt hr))
  have hat := ((s.atProgramPoint_iff).1 hp).2
  rw [State.atProgramPoint_iff, hoff]
  exact ⟨hin, startsAt_add_length (le_refl _) hat hf⟩

/-! ### What a step that completes did -/

/-- A step that completes executes the instruction it fetched. -/
theorem step_next {s t : State} (h : step s = .next t) :
    s.fetchRefusal = none ∧ ∃ i rest, s.fetch = .instr i rest ∧ exec i s = .next t := by
  rw [step] at h
  cases hr : s.fetchRefusal with
  | some r => simp [hr] at h
  | none =>
    cases hf : s.fetch with
    | instr i rest => exact ⟨rfl, i, rest, rfl, by simpa [hr, hf] using h⟩
    | invalid why => simp [hr, hf, raiseInvalid, raise] at h
    | tooLong => simp [hr, hf, raiseTooLong, raise] at h
    | refused why => simp [hr, hf] at h

/-- Reading the second source leaves the state, or remembers which writes of others a memory read saw (R65). -/
theorem State.readSource2_state {s t : State} {vl : VecLen} {o : Operands} {v : Vec}
    (h : s.readSource2 vl o = .ok (v, t)) : t = s ∨ ∃ la n, t = s.observe la n := by
  obtain ⟨_, -, -, rfl⟩ | ⟨_, -, -, -, rfl⟩ := State.readSource2_ok h
  · exact .inl rfl
  · exact .inr ⟨_, _, rfl⟩

/-- A form that completes does so from the state its source's read left. -/
theorem exec_next {i : Instr} {s u : State} (h : exec i s = .next u) :
    ∃ t r, (t = s ∨ ∃ la n, t = s.observe la n) ∧ u = t.complete i.operands r := by
  rw [exec_eq_compareWords] at h
  obtain ⟨-, -, _, t, hs, rfl⟩ := compareWords_next h
  exact ⟨t, _, State.readSource2_state hs, rfl⟩

/-! ### Each update keeps the launch premises (R232, R234) -/

theorem State.LaunchOk.observe {s : State} (h : s.LaunchOk) (la : Addr) (n : Nat) : (s.observe la n).LaunchOk :=
  { h with seen := s.seenAfter_wf h.seen la n }

theorem State.LaunchOk.setK {s : State} (h : s.LaunchOk) (n : BitVec 3) (v : MaskVal) : (s.setK n v).LaunchOk :=
  { h with masks := State.setK_masks h.masks n v }

theorem State.LaunchOk.setRip {s : State} (h : s.LaunchOk) {a : Addr} (ha : (s.setRip a).atProgramPoint = true) :
    (s.setRip a).LaunchOk :=
  { h with atProgramPoint := ha }

theorem State.LaunchOk.complete {s : State} (h : s.LaunchOk) {o : Operands} (r : MaskVal)
    (ha : (s.setRip (s.nextRip o)).atProgramPoint = true) : (s.complete o r).LaunchOk :=
  (h.setK o.dest r).setRip ha

/-! ### Outside 64-bit mode (R3, R31) -/

theorem State.mode64_eq_false_iff (s : State) : s.mode64 = false ↔
    s.cr0.getLsbD 0 = false ∨ s.cr0.getLsbD 31 = false ∨ s.efer.getLsbD 10 = false ∨ s.csL = false := by
  simp only [State.mode64, State.cr0Pe, State.cr0Pg, State.eferLma, Bool.and_eq_false_iff, or_assoc]

theorem exec_of_notMode64 {s : State} (h : s.mode64 = false) (i : Instr) : exec i s = .refused .notMode64 := by
  rw [exec_eq_compareWords, compareWords, if_pos h]

theorem step_of_notMode64 {s : State} (h : s.mode64 = false) : step s = .refused .notMode64 := by
  have hr : s.fetchRefusal = some .notMode64 := if_pos h
  rw [step, hr]

end Machine

end Sys2Proof

open Sys2Proof Sys2Proof.Machine

/-- Settles O55: the read of the source and the write of the mask register keep the premises, and RIP then moves past
the fetched instruction to the next program point. -/
theorem stepKeepsLaunchPremises : Obligations.StepKeepsLaunchPremises := by
  intro s t h hstep
  obtain ⟨-, i, rest, hfetch, hexec⟩ := step_next hstep
  have hpoint := State.atProgramPoint_advance h.codeRegion h.atProgramPoint hfetch
  obtain ⟨u, r, rfl | ⟨la, n, rfl⟩, rfl⟩ := exec_next hexec
  · exact h.complete r hpoint
  · exact (h.observe la n).complete r hpoint

/-- Settles O34: the mode is what a form and a step check first. -/
theorem otherModesRefused : Obligations.OtherModesRefused := by
  refine ⟨fun i s h => ?_, exec_of_notMode64 (by decide)⟩
  have hm := s.mode64_eq_false_iff.2 h
  exact ⟨exec_of_notMode64 hm i, step_of_notMode64 hm⟩
end

section
/-! SUPPORT. What a form that completes has read and leaves unchanged, what the vector registers' upper bits and the
privilege level do not change, the points and the region of a program, and the statements of 10_state.md. -/

namespace Sys2Proof.Machine

/-! ### The points of a program as sums of lengths (R234) -/

/-- Decoding instructions from the front uses up as many bytes as they are long. -/
theorem DecodesTo.length_eq {is : List Instr} {bs rest : List Byte} (h : DecodesTo bs is rest) :
    bs.length = (is.map Instr.length).sum + rest.length := by
  induction is generalizing bs with
  | nil =>
    have hrest : rest = bs := h
    simp [hrest]
  | cons i is ih =>
    obtain ⟨bs', hd, h'⟩ := h
    rw [decode_length hd, ih h', List.map_cons, List.sum_cons, Nat.add_assoc]

/-- With fuel for every byte, the points of a program are the sums of its first lengths (R234). -/
theorem startsAt_iff_decodesTo {fuel off : Nat} {bs : List Byte} (hfuel : bs.length ≤ fuel) :
    startsAt fuel bs off = true ↔ ∃ is rest, DecodesTo bs is rest ∧ off = (is.map Instr.length).sum := by
  induction fuel generalizing bs off with
  | zero =>
    constructor
    · intro h
      cases off with
      | zero => exact ⟨[], bs, rfl, rfl⟩
      | succ n => cases h
    · rintro ⟨is, rest, hd, rfl⟩
      have hlen := hd.length_eq
      have hsum : (is.map Instr.length).sum = 0 := by omega
      rw [hsum, startsAt_zero]
  | succ f ih =>
    rcases Nat.eq_zero_or_pos off with rfl | hpos
    · exact iff_of_true (startsAt_zero _ _) ⟨[], bs, rfl, rfl⟩
    rw [startsAt_succ_iff hpos]
    constructor
    · rintro ⟨i, r, hd, hle, hat⟩
      have hlen := decode_length hd
      have hi := i.length_pos
      obtain ⟨is, rest, hds, hoff⟩ := (ih (by omega)).1 hat
      exact ⟨i :: is, rest, ⟨r, hd, hds⟩, by rw [List.map_cons, List.sum_cons]; omega⟩
    · rintro ⟨is, rest, hds, rfl⟩
      cases is with
      | nil => exact absurd hpos (Nat.lt_irrefl 0)
      | cons i is =>
        obtain ⟨r, hd, hds⟩ := hds
        have hlen := decode_length hd
        have hi := i.length_pos
        rw [List.map_cons, List.sum_cons]
        refine ⟨i, r, hd, Nat.le_add_right _ _, ?_⟩
        rw [Nat.add_sub_cancel_left]
        exact (ih (by omega)).2 ⟨is, rest, hds, rfl⟩

/-- RIP is at a program point exactly when its offset is the sum of the first lengths; no such sum leaves the code. -/
theorem State.atProgramPoint_iff_decodesTo (s : State) : s.atProgramPoint = true ↔
    ∃ is rest, DecodesTo s.code is rest ∧ s.ripOffset = (is.map Instr.length).sum := by
  rw [State.atProgramPoint_iff, startsAt_iff_decodesTo (le_refl _)]
  constructor
  · exact And.right
  · rintro ⟨is, rest, hd, hoff⟩
    have hlen := hd.length_eq
    exact ⟨by omega, is, rest, hd, hoff⟩

theorem State.atEnd_iff (s : State) : s.atEnd = true ↔ s.ripOffset = s.code.length := by simp [State.atEnd]

/-! ### Canonical addresses and the code region (R27, R61) -/

/-- A canonical address lies in the low or in the high part of the address space (R61). -/
theorem isCanonical_iff (v : VaBits) (a : Addr) : isCanonical v a = true ↔
    a.toNat < 2 ^ (v.toNat - 1) ∨ 2 ^ 64 - 2 ^ (v.toNat - 1) ≤ a.toNat := by
  have ha := a.isLt
  cases v <;>
    simp only [isCanonical, VaBits.toNat, Bool.or_eq_true, beq_iff_eq, ← BitVec.toNat_inj, BitVec.toNat_ushiftRight,
      BitVec.toNat_not, BitVec.toNat_ofNat, Nat.shiftRight_eq_div_pow] <;>
    omega

/-- Bit 63 says in which half of the address space an address lies. -/
theorem getLsbD_63_eq_decide (a : Addr) : a.getLsbD 63 = decide (2 ^ 63 ≤ a.toNat) := a.msb_eq_decide

/-- The two clauses of the region check, as numbers (R27, D15). -/
theorem State.codeRegionOk_iff (s : State) : s.codeRegionOk = true ↔
    s.codeBase.toNat + s.code.length < 2 ^ 64 ∧
      (s.codeBase.toNat + s.code.length < 2 ^ (s.cfg.vaBits.toNat - 1) ∨
        2 ^ 64 - 2 ^ (s.cfg.vaBits.toNat - 1) ≤ s.codeBase.toNat) := by
  simp only [State.codeRegionOk, Bool.and_eq_true, Bool.or_eq_true, decide_eq_true_eq]

/-- The region check, address by address: the two ends decide, because both are in the half of the first. -/
theorem State.codeRegionOk_iff_forall (s : State) : s.codeRegionOk = true ↔
    s.codeBase.toNat + s.code.length < 2 ^ 64 ∧
      ∀ i ≤ s.code.length, isCanonical s.cfg.vaBits (s.codeBase + BitVec.ofNat 64 i) = true ∧
        (s.codeBase + BitVec.ofNat 64 i).getLsbD 63 = s.codeBase.getLsbD 63 := by
  rw [State.codeRegionOk_iff]
  refine and_congr_right fun hlast => ?_
  have hva : s.cfg.vaBits.toNat = 48 ∨ s.cfg.vaBits.toNat = 57 := by cases s.cfg.vaBits <;> simp [VaBits.toNat]
  have hadd : ∀ i ≤ s.code.length, (s.codeBase + BitVec.ofNat 64 i).toNat = s.codeBase.toNat + i := by
    intro i hi
    rw [BitVec.toNat_add, BitVec.toNat_ofNat]
    omega
  constructor
  · intro h i hi
    rw [isCanonical_iff, getLsbD_63_eq_decide, getLsbD_63_eq_decide, hadd i hi, decide_eq_decide]
    rcases hva with e | e <;> rw [e] at h ⊢ <;> omega
  · intro h
    obtain ⟨hcan, hhalf⟩ := h s.code.length (le_refl _)
    obtain ⟨hcan0, -⟩ := h 0 (Nat.zero_le _)
    rw [isCanonical_iff, hadd _ (le_refl _)] at hcan
    rw [isCanonical_iff, hadd 0 (Nat.zero_le _)] at hcan0
    rw [getLsbD_63_eq_decide, getLsbD_63_eq_decide, hadd _ (le_refl _), decide_eq_decide] at hhalf
    rcases hva with e | e <;> rw [e] at hcan hcan0 ⊢ <;> omega

/-! ### Why no instruction is fetched (R3, R27, R234) -/

theorem step_of_fetchRefusal {s : State} {r : Refusal} (h : s.fetchRefusal = some r) : step s = .refused r := by
  rw [step, h]

/-- In 64-bit mode the checks before a fetch go in this order. -/
theorem State.fetchRefusal_of_mode64 {s : State} (h : s.mode64 = true) :
    s.fetchRefusal =
      if s.codeRegionOk = false then some .codeRegion
      else if s.atProgramPoint = false then some .ripOutsideProgram
      else if s.atEnd then some .endOfRun
      else none :=
  if_neg (by simp [h])

theorem State.fetchRefusal_eq_none_iff (s : State) : s.fetchRefusal = none ↔
    s.mode64 = true ∧ s.codeRegionOk = true ∧ s.atProgramPoint = true ∧ s.atEnd = false := by
  unfold State.fetchRefusal
  split_ifs <;> simp_all

/-! ### What a form that completes leaves unchanged (R20) -/

theorem Untouched.refl (s : State) : Untouched s s := by
  constructor <;> intros <;> rfl

theorem Untouched.observe {s t : State} (h : Untouched s t) (la : Addr) (n : Nat) : Untouched s (t.observe la n) :=
  { h with }

theorem Untouched.complete {s t : State} (h : Untouched s t) (o : Operands) (r : MaskVal) :
    Untouched s (t.complete o r) :=
  { h with }

/-- A form completes exactly when it is ready, its fixed bits are legal and its source is read; the next state is then
the completed one (R146). -/
theorem exec_eq_next_iff {i : Instr} {s u : State} : exec i s = .next u ↔
    s.Ready i.vecLen ∧ i.operands.fixed.legal = true ∧ ∃ v t, s.readSource2 i.vecLen i.operands = .ok (v, t) ∧
      u = t.complete i.operands
        (vpcmp i.signedness i.vecLen (predicateBits i.operands.imm8) (s.readVec i.vecLen i.operands.src1) v
          (s.maskOperand i.operands.mask)) := by
  rw [exec_eq_compareWords]
  constructor
  · exact compareWords_next
  · rintro ⟨hr, hl, v, t, hs, rfl⟩
    exact compareWords_completes hr hl hs

/-- A form that completes changes no field of `Untouched`. -/
theorem exec_untouched {i : Instr} {s u : State} (h : exec i s = .next u) : Untouched s u := by
  obtain ⟨t, r, rfl | ⟨la, n, rfl⟩, rfl⟩ := exec_next h
  · exact (Untouched.refl t).complete _ r
  · exact ((Untouched.refl s).observe la n).complete _ r

/-- A form that completes writes no mask register but DEST. -/
theorem exec_kReg_other {i : Instr} {s u : State} (h : exec i s = .next u) {n : BitVec 3}
    (hn : n ≠ i.operands.dest) : u.kReg n = s.kReg n := by
  obtain ⟨t, r, rfl | ⟨la, m, rfl⟩, rfl⟩ := exec_next h
  · exact t.complete_kReg_other _ r hn.symm
  · exact State.complete_kReg_other _ _ r hn.symm

/-- A form that completes moves RIP by its length (R27). -/
theorem exec_rip {i : Instr} {s u : State} (h : exec i s = .next u) : u.rip = s.rip + BitVec.ofNat 64 i.length := by
  obtain ⟨t, r, rfl | ⟨la, n, rfl⟩, rfl⟩ := exec_next h <;> rfl

/-! ### With other vector registers (R22) -/

/-- A vector operand depends on the register's bits below VL only. -/
theorem State.readVec_congr {s u : State} {vl : VecLen} {n : BitVec 5}
    (h : ∀ j < vl.bits, (u.zmmReg n).getLsbD j = (s.zmmReg n).getLsbD j) : u.readVec vl n = s.readVec vl n := by
  have hlow : (u.zmmReg n).setWidth vl.bits = (s.zmmReg n).setWidth vl.bits := by
    apply BitVec.eq_of_getLsbD_eq
    intro j hj
    simp only [BitVec.getLsbD_setWidth, h j hj]
  rw [State.readVec, State.readVec, hlow]

theorem State.observe_withZmm (s : State) (z : Vector Vec 32) (la : Addr) (n : Nat) :
    ({ s with zmm := z } : State).observe la n = { s.observe la n with zmm := z } := by
  simp only [State.observe, State.seenAfter_congr (s := s) (u := { s with zmm := z }) rfl rfl rfl]

/-- With vector registers that read the same, the second source reads the same value. -/
theorem State.readSource2_withZmm {s t : State} {vl : VecLen} {o : Operands} {v : Vec} {z : Vector Vec 32}
    (hz : ∀ n, ({ s with zmm := z } : State).readVec vl n = s.readVec vl n)
    (h : s.readSource2 vl o = .ok (v, t)) :
    ({ s with zmm := z } : State).readSource2 vl o = .ok (v, { t with zmm := z }) := by
  obtain ⟨n, hn, rfl, rfl⟩ | ⟨m, hm, hread, rfl, rfl⟩ := State.readSource2_ok h
  · rw [State.readSource2_reg _ vl o hn, hz n]
  · rw [State.readSource2_mem { s with zmm := z } vl o hm hread, State.observe_withZmm,
      State.memRead_congr (s := s) (u := { s with zmm := z }) rfl rfl rfl rfl]
    rfl

/-- With vector registers that read the same, a form completes with the same state but for them. -/
theorem exec_withZmm {i : Instr} {s t : State} {z : Vector Vec 32}
    (hz : ∀ n, ({ s with zmm := z } : State).readVec i.vecLen n = s.readVec i.vecLen n) (h : exec i s = .next t) :
    exec i { s with zmm := z } = .next { t with zmm := z } := by
  obtain ⟨hready, hlegal, v, u, hs, rfl⟩ := exec_eq_next_iff.1 h
  refine exec_eq_next_iff.2 ⟨hready, hlegal, v, _, State.readSource2_withZmm hz hs, ?_⟩
  rw [hz]
  rfl

/-! ### At another privilege level (R34, R209) -/

/-- Only a supervisor region admits a byte at one level and not at another (R196). -/
theorem Access.answer_ok_of_ne_supervisor {x : Access} {c d : BitVec 2} (hx : x ≠ .supervisor)
    (h : x.answer c = .ok) : x.answer d = .ok := by
  cases x with
  | ordinary => rfl
  | supervisor => exact absurd rfl hx
  | faulting p r k => cases h
  | device => cases h

theorem State.answer_ok_withCpl {s : State} (hmap : ∀ r ∈ s.map, r.access ≠ .supervisor) (c : BitVec 2) {a : Addr}
    (h : s.answer a = .ok) : ({ s with cpl := c } : State).answer a = .ok := by
  have hregion : ({ s with cpl := c } : State).regionAt a = s.regionAt a := rfl
  rw [State.answer] at h ⊢
  rw [hregion]
  cases hr : s.regionAt a with
  | none => simp [hr] at h
  | some r =>
    rw [hr] at h
    exact Access.answer_ok_of_ne_supervisor (hmap r (List.mem_of_find?_eq_some hr)) h

theorem State.memoryReadable_withCpl {s : State} (hmap : ∀ r ∈ s.map, r.access ≠ .supervisor) (c : BitVec 2)
    {vl : VecLen} {o : Operands} {m : MemOperand} (h : s.MemoryReadable vl o m) :
    ({ s with cpl := c } : State).MemoryReadable vl o m :=
  ⟨h.1, fun a ha => ⟨(h.2 a ha).1, State.answer_ok_withCpl hmap c (h.2 a ha).2⟩⟩

theorem State.observe_withCpl (s : State) (c : BitVec 2) (la : Addr) (n : Nat) :
    ({ s with cpl := c } : State).observe la n = { s.observe la n with cpl := c } := by
  simp only [State.observe, State.seenAfter_congr (s := s) (u := { s with cpl := c }) rfl rfl rfl]

/-- A source that is read is read with the same value at every level, where no region depends on it. -/
theorem State.readSource2_withCpl {s t : State} {vl : VecLen} {o : Operands} {v : Vec}
    (hmap : ∀ r ∈ s.map, r.access ≠ .supervisor) (c : BitVec 2) (h : s.readSource2 vl o = .ok (v, t)) :
    ({ s with cpl := c } : State).readSource2 vl o = .ok (v, { t with cpl := c }) := by
  obtain ⟨n, hn, rfl, rfl⟩ | ⟨m, hm, hread, rfl, rfl⟩ := State.readSource2_ok h
  · exact State.readSource2_reg _ vl o hn
  · rw [State.readSource2_mem _ vl o hm (State.memoryReadable_withCpl hmap c hread), State.observe_withCpl,
      State.memRead_congr (s := s) (u := { s with cpl := c }) rfl rfl rfl rfl]
    rfl

/-! ### The launch state (R231) -/

/-- The launch memory's one region holds every address (log entry 4). -/
theorem State.reset_regionAt (a : Addr) :
    State.reset.regionAt a = some { base := 0, size := 2 ^ 64, access := .ordinary, shared := false } :=
  List.find?_cons_of_pos (by simpa using a.isLt)

end Sys2Proof.Machine

open Sys2Proof Sys2Proof.Machine

/-- Settles O14: the state after a form differs from the one before by the read of the source, which only moves the
model's own records, and by DEST and RIP. -/
theorem frameOfEveryForm : Obligations.FrameOfEveryForm := by
  intro i s t h
  refine ⟨exec_untouched h, fun n hn => exec_kReg_other h hn, ?_⟩
  obtain ⟨-, -, v, u, hs, rfl⟩ := exec_eq_next_iff.1 h
  obtain ⟨n, hn, -, rfl⟩ | ⟨m, hm, -, -, rfl⟩ := State.readSource2_ok hs
  · exact .inl ⟨n, hn, rfl, rfl⟩
  · refine .inr ⟨m, hm, rfl, fun hwf a ha => (State.observe_seenAt hwf _ a _).trans (if_neg ?_)⟩
    rintro ⟨hshared, j, hj, rfl⟩
    exact ha.elim (by simp [hshared]) (fun hout => hout j hj rfl)

/-- Settles O16: a form reads a vector register through its bits below VL only, and the memory operand and the checks
do not look at the vector registers. -/
theorem vectorBitsAboveLengthIgnored : Obligations.VectorBitsAboveLengthIgnored := by
  refine ⟨fun i s t h => (exec_untouched h).zmm, fun i s t z h hz => ?_⟩
  exact ⟨_, exec_withZmm (fun n => State.readVec_congr (hz n)) h, rfl, rfl⟩

/-- Settles O51: the level is read by the admission of supervisor regions only. -/
theorem privilegeDoesNotMatter : Obligations.PrivilegeDoesNotMatter := by
  intro i s t c hmap h
  obtain ⟨hready, hlegal, v, u, hs, rfl⟩ := exec_eq_next_iff.1 h
  exact exec_eq_next_iff.2 ⟨hready, hlegal, v, _, State.readSource2_withCpl hmap c hs, rfl⟩

/-- Settles O53: the checks before a fetch go in the order of the refusals, and each is what it says of RIP and of the
region's addresses. -/
theorem stepOutsideTheProgram : Obligations.StepOutsideTheProgram := by
  refine ⟨fun s hm => ?_, State.atProgramPoint_iff_decodesTo, State.atEnd_iff, State.codeRegionOk_iff_forall⟩
  have hf := State.fetchRefusal_of_mode64 hm
  split_ifs with hregion hpoint
  · exact step_of_fetchRefusal (hf.trans (if_pos hregion))
  · exact step_of_fetchRefusal (by rw [hf, if_neg hregion, if_pos hpoint])
  · intro hend
    exact step_of_fetchRefusal (by rw [hf, if_neg hregion, if_neg hpoint, if_pos hend])

/-- Settles O56: the fetched instruction lies inside the code, so RIP's offset does not wrap when RIP moves past it. -/
theorem stepAdvancesByLength : Obligations.StepAdvancesByLength := by
  intro s t h
  obtain ⟨hnone, i, rest, hfetch, hexec⟩ := step_next h
  obtain ⟨-, hregion, hpoint, -⟩ := s.fetchRefusal_eq_none_iff.1 hnone
  have hin := State.fetch_inside hpoint hfetch
  have hlt := State.code_length_lt hregion
  have hoff : t.ripOffset = s.ripOffset + i.length := by
    rw [← State.ripOffset_advance (Nat.lt_of_le_of_lt hin hlt), State.ripOffset, exec_rip hexec,
      (exec_untouched hexec).codeBase]
    rfl
  exact ⟨i, rest, hfetch, exec_rip hexec, hoff, hoff ▸ hin⟩

/-- Settles O58: the launch state's fields as they are written; its one region holds every address. -/
theorem resetValues : Obligations.ResetValues := by
  have hanswer : ∀ a, State.reset.answer a = .ok ∧ State.reset.sharedAt a = false := fun a => by
    simp [State.answer, State.sharedAt, State.reset_regionAt, Access.answer]
  exact ⟨fun _ => Vector.getElem_replicate _, fun _ => Vector.getElem_replicate _,
    fun _ => Vector.getElem_replicate _, rfl, rfl, rfl, rfl, rfl, rfl, rfl, rfl, rfl, rfl, rfl, rfl, rfl, rfl,
    rfl, hanswer, fun _ => rfl, rfl, rfl, fun _ => rfl, rfl⟩
end

section
/-! SUPPORT. The bits of an address, of a page fault's code and of a wide read, the region that holds an address, the
order of an operand's checks, what a read remembers, and the statements of 20_memory.md. -/

namespace Sys2Proof.Machine

/-! ### Canonical addresses, bit by bit (R61) -/

/-- A right shift leaves nothing exactly when every bit from there on is 0. -/
theorem ushiftRight_eq_zero_iff (a : Addr) (k : Nat) :
    a >>> k = 0#64 ↔ ∀ n, k ≤ n → n < 64 → a.getLsbD n = false := by
  constructor
  · intro h n hk _
    have hbit := congrArg (fun b : Addr => b.getLsbD (n - k)) h
    rwa [BitVec.getLsbD_ushiftRight, Nat.add_sub_cancel' hk, BitVec.getLsbD_zero] at hbit
  · intro h
    apply BitVec.eq_of_getLsbD_eq
    intro i _
    rw [BitVec.getLsbD_ushiftRight, BitVec.getLsbD_zero]
    rcases Nat.lt_or_ge (k + i) 64 with hlt | hge
    · exact h _ (Nat.le_add_right k i) hlt
    · exact BitVec.getLsbD_of_ge _ _ hge

/-- The same for the complement: every bit from there on is 1. -/
theorem not_ushiftRight_eq_zero_iff (a : Addr) (k : Nat) :
    (~~~a) >>> k = 0#64 ↔ ∀ n, k ≤ n → n < 64 → a.getLsbD n = true := by
  rw [ushiftRight_eq_zero_iff]
  refine forall_congr' fun n => imp_congr_right fun _ => imp_congr_right fun hn => ?_
  simp [hn]

theorem VaBits.toNat_le (v : VaBits) : v.toNat ≤ 64 := by cases v <;> decide

/-! ### A page fault's code (R196) -/

/-- Bits 0, 2, 3 and 5 are P, U/S, RSVD and PK; every other bit is 0. -/
theorem pageFaultCode_getLsbD (present rsvd pk : Bool) (cpl : BitVec 2) (n : Nat) :
    (pageFaultCode present rsvd pk cpl).getLsbD n =
      if n = 0 then present else if n = 2 then decide (cpl = 3#2) else if n = 3 then rsvd
      else if n = 5 then pk else false := by
  rw [pageFaultCode]
  change BitVec.getLsbD (w := 26 + (1 + (1 + (1 + (1 + (1 + 1)))))) _ n = _
  simp only [BitVec.getLsbD_append]
  rcases n with _ | _ | _ | _ | _ | _ | n <;> simp [beq_eq_decide]

/-! ### The region that holds an address (R63; log entry 9) -/

theorem State.regionAt_eq_none {s : State} {a : Addr} (h : ∀ r ∈ s.map, ¬r.Holds a) : s.regionAt a = none :=
  List.find?_eq_none.2 fun r hr => by simpa using h r hr

/-- The first region that holds an address is the one it lies in. -/
theorem State.regionAt_eq_some {s : State} {a : Addr} {before after : List Region} {r : Region}
    (hmap : s.map = before ++ r :: after) (hbefore : ∀ q ∈ before, ¬q.Holds a) (hr : r.Holds a) :
    s.regionAt a = some r := by
  rw [State.regionAt, hmap, List.find?_eq_some_iff_append]
  exact ⟨by simpa using hr, before, after, rfl, fun q hq => by simpa [imp_iff_not_or] using hbefore q hq⟩

theorem State.answer_of_regionAt {s : State} {a : Addr} {r : Region} (h : s.regionAt a = some r) :
    s.answer a = r.access.answer s.cpl := by
  rw [State.answer, h]

theorem State.sharedAt_of_regionAt {s : State} {a : Addr} {r : Region} (h : s.regionAt a = some r) :
    s.sharedAt a = r.shared := by
  rw [State.sharedAt, h]

theorem State.answer_of_regionAt_none {s : State} {a : Addr} (h : s.regionAt a = none) : s.answer a = .nothing := by
  rw [State.answer, h]

theorem State.sharedAt_of_regionAt_none {s : State} {a : Addr} (h : s.regionAt a = none) : s.sharedAt a = false := by
  rw [State.sharedAt, h]

/-! ### The bytes that count (R60, R199) -/

/-- The offsets that count: those of the active lanes under fault suppression, else all of the operand's. -/
theorem State.mem_countedOffsets (s : State) (vl : VecLen) (m : Option MaskVal) (i : Nat) :
    i ∈ s.countedOffsets vl m ↔ i < vl.bytes ∧ (s.cfg.faultSuppression = true → laneActive m (i / 2) = true) := by
  unfold State.countedOffsets
  split_ifs with hfs <;> simp [hfs]

theorem State.mem_countedBytes (s : State) (vl : VecLen) (mask : BitVec 3) (la a : Addr) :
    a ∈ s.countedBytes vl mask la ↔
      ∃ i < vl.bytes, (s.cfg.faultSuppression = true → laneActive (s.maskOperand mask) (i / 2) = true) ∧
        a = byteAddr la i := by
  simp only [State.countedBytes, List.mem_map, State.mem_countedOffsets, and_assoc, eq_comm (a := byteAddr la _)]

/-- The offsets below 2 * n are the two bytes of each lane below n. -/
theorem exists_lt_two_mul_iff {n : Nat} {P : Nat → Nat → Prop} :
    (∃ i < 2 * n, P (i / 2) i) ↔ ∃ j < n, P j (2 * j) ∨ P j (2 * j + 1) := by
  constructor
  · rintro ⟨i, hi, hP⟩
    refine ⟨i / 2, by omega, ?_⟩
    rcases Nat.mod_two_eq_zero_or_one i with h | h
    · exact .inl (by rwa [show 2 * (i / 2) = i by omega])
    · exact .inr (by rwa [show 2 * (i / 2) + 1 = i by omega])
  · rintro ⟨j, hj, hP | hP⟩
    · exact ⟨2 * j, by omega, by rwa [show 2 * j / 2 = j by omega]⟩
    · exact ⟨2 * j + 1, by omega, by rwa [show (2 * j + 1) / 2 = j by omega]⟩

/-! ### The checks of a memory operand, in their order (R61 to R63, R196; log entry 10) -/

section Checks

variable {s : State} {vl : VecLen} {o : Operands} {m : MemOperand} {c : List Addr}

/-- Where every byte that counts is canonical, the wrap-around is checked next, then paging. -/
theorem State.memoryCheck_of_canonical
    (h : ∀ a ∈ s.countedBytes vl o.mask (s.linearAddress vl o m), isCanonical s.cfg.vaBits a = true) :
    s.memoryCheck vl o m =
      if 2 ^ 64 < (s.linearAddress vl o m).toNat + vl.bytes then some .stuckWrap
      else s.pagingCheck (s.countedBytes vl o.mask (s.linearAddress vl o m)) :=
  if_neg (by simpa using h)

/-- A byte the launch memory says nothing of goes before everything else. -/
theorem State.pagingCheck_of_nothing (h : ∃ a ∈ c, s.answer a = .nothing) :
    s.pagingCheck c = some .stuckUnlisted :=
  if_pos (by simpa using h)

/-- A device's byte goes before a page fault. -/
theorem State.pagingCheck_of_device (hn : ∀ a ∈ c, s.answer a ≠ .nothing) (h : ∃ a ∈ c, s.answer a = .device) :
    s.pagingCheck c = some .stuckDevice :=
  (if_neg (by simpa using hn)).trans (if_pos (by simpa using h))

end Checks

/-- A ready form stops with what the check of its memory operand answers. -/
theorem exec_of_memoryCheck {i : Instr} {s : State} {m : MemOperand} {f : Fault} (hr : s.Ready i.vecLen)
    (hl : i.operands.fixed.legal = true) (hm : i.operands.src2 = .mem m)
    (hf : s.memoryCheck i.vecLen i.operands m = some f) : exec i s = .fault f := by
  have hs : s.readSource2 i.vecLen i.operands = .error f := by simp [State.readSource2, hm, hf]
  simp [exec_eq_compareWords, compareWords, State.mode64_of_evexEnabled hr.1, hr.valid hl, hr.2.2, hs]

/-! ### Wide reads and the writes of others they see (R52, R65) -/

/-- Byte i of a wide read is the byte at la + i (R52). -/
theorem State.memRead_extractLsb' (s : State) (la : Addr) {n i : Nat} (hn : n ≤ 64) (hi : i < n) :
    (s.memRead la n).extractLsb' (8 * i) 8 = s.byteAt (byteAddr la i) := by
  apply BitVec.eq_of_getLsbD_eq
  intro b hb
  have hq : (8 * i + b) / 8 = i := by omega
  have hm : (8 * i + b) % 8 = b := by omega
  rw [BitVec.getLsbD_extractLsb', State.memRead_getLsbD s la n _ (by omega) (by omega), hq, hm]
  simp [hb]

/-- A shared byte is the launch contents at place 0 and write n of another agent at place n + 1 (R65). -/
theorem State.byteAt_shared {s : State} {a : Addr} (h : s.sharedAt a = true) :
    (s.placeAt a = 0 ∧ s.byteAt a = s.mem.read a.toNat) ∨
      ∃ n, s.placeAt a = n + 1 ∧ s.byteAt a = Config.writtenByte a n := by
  have hb : s.byteAt a = s.valueAt a (s.placeAt a) := if_pos h
  rw [hb]
  cases s.placeAt a with
  | zero => exact .inl ⟨rfl, rfl⟩
  | succ n => exact .inr ⟨n, rfl, rfl⟩

/-- A memory form that completes has reached, of each shared byte it read, the place the read found (R65). -/
theorem exec_seenAt {i : Instr} {s t : State} {m : MemOperand} (hwf : s.seen.wf = true)
    (hm : i.operands.src2 = .mem m) (h : exec i s = .next t) {j : Nat} (hj : j < i.vecLen.bytes)
    (hs : s.sharedAt (byteAddr (s.linearAddress i.vecLen i.operands m) j) = true) :
    t.seenAt (byteAddr (s.linearAddress i.vecLen i.operands m) j) =
      s.placeAt (byteAddr (s.linearAddress i.vecLen i.operands m) j) := by
  obtain ⟨-, -, v, u, hread, rfl⟩ := exec_eq_next_iff.1 h
  obtain ⟨n, hn, -, -⟩ | ⟨m', hm', -, -, rfl⟩ := State.readSource2_ok hread
  · simp [hm] at hn
  · obtain rfl : m = m' := by simpa [hm] using hm'
    exact (State.observe_seenAt hwf _ _ _).trans (if_pos ⟨hs, j, hj, rfl⟩)

/-- Where no byte of the operand is shared, the second source reads the same value whatever the reads before it drew
and saw (R66). -/
theorem State.readSource2_withOracle {s t : State} {vl : VecLen} {o : Operands} {v : Vec} (hp : s.PrivateOperand vl o)
    (d : Nat) (q : Seen) (h : s.readSource2 vl o = .ok (v, t)) :
    ∃ u, ({ s with seen := q, draws := d } : State).readSource2 vl o = .ok (v, u) ∧
      u.k = t.k ∧ u.cfg = t.cfg ∧ u.rip = t.rip := by
  obtain ⟨n, hn, rfl, rfl⟩ | ⟨m, hm, hread, rfl, rfl⟩ := State.readSource2_ok h
  · exact ⟨_, State.readSource2_reg _ vl o hn, rfl, rfl, rfl⟩
  · have hunshared : ∀ i < vl.bytes, s.sharedAt (byteAddr (s.linearAddress vl o m) i) = false := by
      simpa only [State.PrivateOperand, hm] using hp
    have hv := State.memRead_private (s := s) (u := { s with seen := q, draws := d }) rfl rfl hunshared
    refine ⟨({ s with seen := q, draws := d } : State).observe (s.linearAddress vl o m) vl.bytes, ?_, rfl, rfl, rfl⟩
    rw [← hv]
    exact State.readSource2_mem _ vl o hm hread

end Sys2Proof.Machine

open Sys2Proof Sys2Proof.Machine

/-- Settles O36: such an operand is not admitted, and of the check's answers only the page fault is left. -/
theorem pageFaultIsRaised : Obligations.PageFaultIsRaised := by
  intro i s m hr hl hm hwrap hbytes ⟨b, hb, hbad⟩
  have hcheck := State.memoryCheck_of_canonical fun a ha => (hbytes a ha).1
  rw [if_neg (Nat.not_lt.2 hwrap)] at hcheck
  have hsome : s.memoryCheck i.vecLen i.operands m ≠ none := fun hnone =>
    hbad (((s.memoryCheck_eq_none _ _ m).1 hnone).2 b hb).2
  obtain ⟨f, hf⟩ := Option.ne_none_iff_exists'.1 hsome
  obtain ⟨-, a, ha, he⟩ | ⟨-, a, ha, he⟩ | ⟨a, ha, code, he, rfl⟩ := State.pagingCheck_some (hcheck.symm.trans hf)
  · simpa [he] using (hbytes a ha).2
  · simpa [he] using (hbytes a ha).2
  · exact ⟨a, ha, code, he, exec_of_memoryCheck hr hl hm hf⟩

/-- Settles O37: the code bit by bit, and each access kind's answer in the region that holds the address first. -/
theorem pageFaultCodeBits : Obligations.PageFaultCodeBits := by
  refine ⟨pageFaultCode_getLsbD, fun s a => ⟨fun hnone => ?_, fun before after r hmap hbefore hr => ?_⟩⟩
  · have hregion := State.regionAt_eq_none hnone
    exact ⟨State.answer_of_regionAt_none hregion, State.sharedAt_of_regionAt_none hregion⟩
  · have hregion := State.regionAt_eq_some hmap hbefore hr
    rw [State.answer_of_regionAt hregion]
    refine ⟨State.sharedAt_of_regionAt hregion, ?_, ?_, ?_, ?_⟩
    · intro hx
      rw [hx, Access.answer]
    · intro hx
      rw [hx, Access.answer]
      split_ifs with hc
      · rw [hc]
      · rfl
    · intro present rsvd pk hx
      rw [hx, Access.answer]
    · intro hx
      rw [hx, Access.answer]

/-- Settles O38: once every byte that counts is canonical, the checks go in this order. -/
theorem stuckOperands : Obligations.StuckOperands := by
  intro i s m hr hl hm hcanonical
  have hcheck := State.memoryCheck_of_canonical hcanonical
  split_ifs with hwrap
  · exact exec_of_memoryCheck hr hl hm (hcheck.trans (if_pos hwrap))
  · rw [if_neg hwrap] at hcheck
    exact ⟨fun h => exec_of_memoryCheck hr hl hm (hcheck.trans (State.pagingCheck_of_nothing h)),
      fun hn h => exec_of_memoryCheck hr hl hm (hcheck.trans (State.pagingCheck_of_device hn h))⟩

/-- Settles O39: a register source is always read, and the read draws nothing. -/
theorem registerFormsMakeNoAccess : Obligations.RegisterFormsMakeNoAccess := by
  intro i s n hn
  have hs := s.readSource2_reg i.vecLen i.operands hn
  rw [exec_eq_compareWords]
  obtain ⟨-, h⟩ | ⟨-, -, h⟩ | ⟨-, -, -, h⟩ | ⟨hr, hl, -⟩ :=
    compareWords_stops i.signedness i.vecLen i.operands s
  · exact .inr (.inr (.inr h))
  · exact .inr (.inl h)
  · exact .inr (.inr (.inl h))
  · exact .inl ⟨_, compareWords_completes hr hl hs, rfl⟩

/-- Settles O40: under fault suppression the bytes that count come in the pairs of the active lanes. -/
theorem bytesThatCount : Obligations.BytesThatCount := by
  intro s vl mask la a
  rw [State.mem_countedBytes]
  split_ifs with hfs
  · have hpairs := exists_lt_two_mul_iff (n := vl.lanes)
      (P := fun j i => laneActive (s.maskOperand mask) j = true ∧ a = byteAddr la i)
    rw [← VecLen.bytes_eq] at hpairs
    simpa [hfs, State.laneActive_maskOperand, byteAddr, ← and_or_left] using hpairs
  · simp [hfs, byteAddr]

/-- Settles O41: no byte counts, so the operand is admitted, and no lane's result is 1. -/
theorem allLanesOffNeverFaults : Obligations.AllLanesOffNeverFaults := by
  intro i s m hr hl hm hfs hmask hoff hwrap
  have hactive : ∀ j < i.vecLen.lanes, laneActive (s.maskOperand i.operands.mask) j = false := fun j hj => by
    simp [State.laneActive_maskOperand, hmask, hoff j hj]
  have hread : s.MemoryReadable i.vecLen i.operands m := by
    refine ⟨hwrap, fun a ha => ?_⟩
    obtain ⟨b, hb, hon, -⟩ := (s.mem_countedBytes _ _ _ a).1 ha
    rw [VecLen.bytes_eq] at hb
    exact absurd (hon hfs) (by simp [hactive (b / 2) (by omega)])
  have hdest : ∀ v, vpcmp i.signedness i.vecLen (predicateBits i.operands.imm8) (s.readVec i.vecLen i.operands.src1) v
      (s.maskOperand i.operands.mask) = 0 := fun v => Nat.eq_of_testBit_eq fun j => by
    rw [vpcmp_testBit, Nat.zero_testBit]
    by_cases hj : j < i.vecLen.lanes
    · simp [hactive j hj]
    · simp [hj]
  exact ⟨_, exec_eq_next_iff.2 ⟨hr, hl, _, _, s.readSource2_mem _ _ hm hread, rfl⟩, by
    rw [State.complete_kReg_vpcmp, hdest]⟩

/-- Settles O48: the bits from va_bits-1 on are all 0 or all 1 exactly when each equals the last of them. -/
theorem canonicalMeansTopBitsEqual : Obligations.CanonicalMeansTopBitsEqual := by
  intro v a
  have hv := VaBits.toNat_le v
  rw [isCanonical, Bool.or_eq_true, beq_iff_eq, beq_iff_eq, not_ushiftRight_eq_zero_iff, ushiftRight_eq_zero_iff]
  constructor
  · rintro (h | h) n hk hn
    · rw [h n hk hn, h 63 (by omega) (by decide)]
    · rw [h n hk hn, h 63 (by omega) (by decide)]
  · intro h
    cases htop : a.getLsbD 63 with
    | false => exact .inl fun n hk hn => (h n hk hn).trans htop
    | true => exact .inr fun n hk hn => (h n hk hn).trans htop

/-- Settles O49: a read joins its bytes least significant first; a form remembers of each shared byte the place it
found, which is an earlier one plus the writes that became visible. -/
theorem memReadLittleEndian : Obligations.MemReadLittleEndian := by
  refine ⟨fun s la n hn => ⟨fun i hi => s.memRead_extractLsb' la hn hi,
    fun j hj => s.lane_memRead la n hj (by omega)⟩, fun s a => State.byteAt_private, ?_⟩
  intro i s t m hwf hm hexec j hj a hs
  have hplace : t.seenAt a = s.placeAt a := exec_seenAt hwf hm hexec hj hs
  rw [hplace]
  exact ⟨Nat.le_add_right _ _, State.byteAt_shared hs⟩

/-- Settles O50: the source reads the same value, and DEST and RIP do not depend on the records of reads. -/
theorem privateOperandNeedsNoOracle : Obligations.PrivateOperandNeedsNoOracle := by
  intro i s t d q hp hexec
  obtain ⟨hr, hl, v, w, hs, rfl⟩ := exec_eq_next_iff.1 hexec
  obtain ⟨u, hu, hk, hcfg, hrip⟩ := State.readSource2_withOracle hp d q hs
  refine ⟨_, exec_eq_next_iff.2 ⟨hr, hl, v, u, hu, rfl⟩, ?_, ?_⟩
  · simp only [State.complete_k, hk, hcfg]
    rfl
  · rw [State.complete_rip, State.complete_rip, hrip]
end

section
/-! SUPPORT. What stands before 62h and what the bytes after it decode to, how an operand's address is computed and
checked, and the statements of 30_encoding.md. -/

namespace Sys2Proof

open Machine

/-! ### Runs of admitted prefixes (R110, R111) -/

@[simp] theorem byteOfSeg_inj {g g' : SegPrefix} : byteOfSeg g = byteOfSeg g' ↔ g = g' := by
  refine ⟨fun h => ?_, congrArg byteOfSeg⟩
  simpa [segOfByte_byteOfSeg] using congrArg segOfByte h

theorem admittedByte_byteOfSeg (g : SegPrefix) : AdmittedByte (byteOfSeg g) := by cases g <;> decide

/-- The rows of a run's last clause are the six overrides, each with its byte. -/
theorem prefixRun_iff {ps : List Byte} {pre : Prefixes} : PrefixRun ps pre ↔
    (∀ p ∈ ps, AdmittedByte p) ∧ ps.length = pre.length ∧ (0x67#8 ∈ ps ↔ pre.addr32 = true) ∧
      ∀ g, byteOfSeg g ∈ ps ↔ pre.seg = some g := by
  refine and_congr_right fun _ => and_congr_right fun _ => and_congr_right fun _ => ?_
  simp only [List.forall_mem_cons, List.not_mem_nil, false_implies, implies_true, and_true]
  constructor
  · rintro ⟨hes, hcs, hss, hds, hfs, hgs⟩ (_ | _ | _ | _ | _ | _) <;> assumption
  · exact fun h => ⟨h .es, h .cs, h .ss, h .ds, h .fs, h .gs⟩

theorem Prefixes.mem_bytes {pre : Prefixes} {b : Byte} : b ∈ pre.bytes ↔
    (b = 0x67#8 ∧ pre.addr32 = true) ∨ ∃ g, b = byteOfSeg g ∧ pre.seg = some g := by
  rcases pre with ⟨_ | g, _ | _⟩ <;> simp [Prefixes.bytes, or_comm]

/-- A run is the bytes the encoder writes for the prefixes, in either order. -/
theorem prefixRun_iff_bytes {ps : List Byte} {pre : Prefixes} :
    PrefixRun ps pre ↔ ps = pre.bytes ∨ ps = pre.bytes.reverse := by
  rw [prefixRun_iff]
  constructor
  · rintro ⟨-, hlen, haddr, hseg⟩
    rcases pre with ⟨_ | g, _ | _⟩
    · exact .inl (List.length_eq_zero_iff.1 hlen)
    · obtain ⟨b, rfl⟩ := List.length_eq_one_iff.1 hlen
      exact .inl (congrArg (fun b => [b]) (List.mem_singleton.1 (haddr.2 rfl)).symm)
    · obtain ⟨b, rfl⟩ := List.length_eq_one_iff.1 hlen
      exact .inl (congrArg (fun b => [b]) (List.mem_singleton.1 ((hseg g).2 rfl)).symm)
    · obtain ⟨a, b, rfl⟩ := List.length_eq_two.1 hlen
      have hg := (hseg g).2 rfl
      have ha := haddr.2 rfl
      have hne := byteOfSeg_ne_addr32 g
      simp only [List.mem_cons, List.not_mem_nil, or_false] at hg ha
      rcases ha with rfl | rfl
      · exact .inr (by rw [← hg.resolve_left hne]; rfl)
      · exact .inl (by rw [← hg.resolve_right hne]; rfl)
  · intro h
    have hmem : ∀ b, b ∈ ps ↔ b ∈ pre.bytes := by rcases h with rfl | rfl <;> simp
    have hlen : ps.length = pre.length := by rcases h with rfl | rfl <;> simp [Prefixes.bytes_length]
    simp only [hmem, hlen, Prefixes.mem_bytes, true_and]
    refine ⟨?_, ?_, fun g => ?_⟩
    · rintro _ (⟨rfl, -⟩ | ⟨g, rfl, -⟩)
      · decide
      · exact admittedByte_byteOfSeg g
    · simp [(byteOfSeg_ne_addr32 _).symm]
    · simp [byteOfSeg_ne_addr32]

/-- At most one 67h and at most one other admitted byte are a run. -/
theorem exists_prefixRun {ps : List Byte} (hps : ∀ p ∈ ps, AdmittedByte p) (haddr : ps.count 0x67#8 ≤ 1)
    (hlen : ps.length ≤ ps.count 0x67#8 + 1) : ∃ pre, PrefixRun ps pre := by
  simp only [prefixRun_iff_bytes]
  match ps with
  | [] => exact ⟨⟨none, false⟩, .inl rfl⟩
  | [a] =>
    rcases admittedByte_cases (hps a (by simp)) with rfl | ⟨g, rfl⟩
    · exact ⟨⟨none, true⟩, .inl rfl⟩
    · exact ⟨⟨some g, false⟩, .inl rfl⟩
  | [a, b] =>
    rcases admittedByte_cases (hps a (by simp)) with rfl | ⟨g, rfl⟩ <;>
      rcases admittedByte_cases (hps b (by simp)) with rfl | ⟨g', rfl⟩
    · simp at haddr
    · exact ⟨⟨some g', true⟩, .inr rfl⟩
    · exact ⟨⟨some g, true⟩, .inl rfl⟩
    · simp [List.count_cons_of_ne, byteOfSeg_ne_addr32] at hlen
  | _ :: _ :: _ :: _ => simp only [List.length_cons] at hlen; omega

/-- Every byte string is a run of admitted bytes and a rest that begins with none. -/
theorem exists_admitted_append (bs : List Byte) :
    ∃ ps rest, bs = ps ++ rest ∧ (∀ p ∈ ps, AdmittedByte p) ∧ ∀ b t, rest = b :: t → ¬AdmittedByte b := by
  induction bs with
  | nil => exact ⟨[], [], rfl, by simp, by simp⟩
  | cons b t ih =>
    by_cases hb : AdmittedByte b
    · obtain ⟨ps, rest, rfl, hps, hrest⟩ := ih
      exact ⟨b :: ps, rest, rfl, List.forall_mem_cons.2 ⟨hb, hps⟩, hrest⟩
    · exact ⟨[], b :: t, rfl, by simp, fun c u h => by rwa [← (List.cons.inj h).1]⟩

/-! ### Decoding behind a run (R120 steps 1 to 3) -/

@[simp] theorem scanPrefixes_addr32 (p : PrefixScan) (t : List Byte) :
    scanPrefixes p (0x67#8 :: t) = scanPrefixes { p with nA32 := p.nA32 + 1 } t := if_pos rfl

@[simp] theorem scanPrefixes_byteOfSeg (p : PrefixScan) (g : SegPrefix) (t : List Byte) :
    scanPrefixes p (byteOfSeg g :: t) = scanPrefixes { p with nSeg := p.nSeg + 1, seg := some g } t := by
  rw [scanPrefixes, if_neg (byteOfSeg_ne_addr32 g), segOfByte_byteOfSeg]

/-- A byte that names an override is its byte. -/
theorem segOfByte_eq_some {b : Byte} {g : SegPrefix} (h : segOfByte b = some g) : b = byteOfSeg g := by
  unfold segOfByte at h
  split_ifs at h with hes hcs hss hds hfs hgs <;> obtain rfl := Option.some.inj h <;> assumption

/-- The loop over prefixes stops at the first byte that is not admitted. -/
theorem scanPrefixes_stop (p : PrefixScan) {rest : List Byte} (h : ∀ b t, rest = b :: t → ¬AdmittedByte b) :
    scanPrefixes p rest = (p, rest) := by
  cases rest with
  | nil => rfl
  | cons b t =>
    have hb := h b t rfl
    have haddr : b ≠ 0x67#8 := fun e => hb (by rw [e]; decide)
    have hseg : segOfByte b = none := Option.eq_none_iff_forall_ne_some.2 fun g hg =>
      hb (segOfByte_eq_some hg ▸ admittedByte_byteOfSeg g)
    rw [scanPrefixes, if_neg haddr, hseg]

/-- After a run the loop over prefixes has counted and named what the run says. -/
theorem scanPrefixes_run {ps : List Byte} {pre : Prefixes} (h : PrefixRun ps pre) (rest : List Byte) :
    scanPrefixes { nSeg := 0, nA32 := 0, seg := none } (ps ++ rest) =
      scanPrefixes { nSeg := pre.seg.isSome.toNat, nA32 := pre.addr32.toNat, seg := pre.seg } rest := by
  rcases pre with ⟨_ | g, _ | _⟩ <;> rcases prefixRun_iff_bytes.1 h with rfl | rfl <;> simp [Prefixes.bytes]

section Run

variable {ps t u : List Byte} {pre : Prefixes} {b : Byte} {n : Nat}

/-- Behind a run the first byte decides: it is 62h, forbidden, or neither. -/
theorem decode_run (h : PrefixRun ps pre) (hb : ¬AdmittedByte b) :
    decode (ps ++ b :: t) =
      if forbiddenPrefix b then
        match skipPrefixes (ps.length + 1) t with
        | (_, []) => .refused .truncated
        | (n, e :: u) => if e = 0x62#8 then decodeForbidden n u else .refused .notEvex
      else if b = 0x62#8 then decodeEvex pre t
      else .refused .notEvex := by
  have hscan := (scanPrefixes_run h (b :: t)).trans (scanPrefixes_stop _ fun c v e => by rwa [← (List.cons.inj e).1])
  obtain ⟨-, hcount, -, -⟩ := h
  have hlen : pre.seg.isSome.toNat + pre.addr32.toNat = ps.length := hcount.symm
  have hseg := Bool.toNat_le pre.seg.isSome
  have haddr := Bool.toNat_le pre.addr32
  have hname : (pre.addr32.toNat == 1) = pre.addr32 := by cases pre.addr32 <;> rfl
  simp only [decode, hscan, hlen, hname]
  exact if_neg (by omega)

/-- With nothing after it a run is cut off. -/
theorem decode_run_nil (h : PrefixRun ps pre) : decode ps = .refused .truncated := by
  have hscan := scanPrefixes_run h []
  have hseg := Bool.toNat_le pre.seg.isSome
  have haddr := Bool.toNat_le pre.addr32
  rw [List.append_nil] at hscan
  simp only [decode, hscan, scanPrefixes]
  exact if_neg (by omega)

theorem decode_run_escape (h : PrefixRun ps pre) (t : List Byte) : decode (ps ++ 0x62#8 :: t) = decodeEvex pre t := by
  rw [decode_run h (by decide), if_neg (by decide), if_pos rfl]

theorem decode_run_forbidden (h : PrefixRun ps pre) (hb : ¬AdmittedByte b) (hf : forbiddenPrefix b = true)
    (hskip : skipPrefixes (ps.length + 1) t = (n, 0x62#8 :: u)) : decode (ps ++ b :: t) = decodeForbidden n u := by
  simp [decode_run h hb, hf, hskip]

end Run

/-- Two 67h or two overrides in a run of admitted bytes are counted, whatever follows. -/
theorem decode_repeated {ps : List Byte} (rest : List Byte) (hps : ∀ p ∈ ps, AdmittedByte p)
    (h : 2 ≤ ps.count 0x67#8 ∨ ps.count 0x67#8 + 2 ≤ ps.length) : decode (ps ++ rest) = .refused .repeatedPrefix := by
  obtain ⟨g, hscan⟩ := scanPrefixes_append hps { nSeg := 0, nA32 := 0, seg := none } rest
  obtain ⟨-, hseg, haddr, -⟩ := scanPrefixes_spec (Prod.mk.eta (p := scanPrefixes _ rest)).symm
  rw [← hscan] at hseg haddr
  simp only [Nat.zero_add] at hseg haddr
  exact if_pos (by omega)

/-! ### Forbidden prefixes (R112) -/

theorem forbiddenPrefix_iff (b : Byte) : forbiddenPrefix b = true ↔ ForbiddenByte b := by
  revert b
  decide +kernel

theorem not_admittedByte_of_forbiddenByte {b : Byte} (h : ForbiddenByte b) : ¬AdmittedByte b := by
  revert b
  decide +kernel

theorem anyPrefix_iff (b : Byte) : anyPrefix b = true ↔ AdmittedByte b ∨ ForbiddenByte b := by
  revert b
  decide +kernel

/-- What the loop behind a forbidden byte skips and counts (R120 step 2). -/
theorem skipPrefixes_spec (n : Nat) (bs : List Byte) :
    ∃ qs rest, bs = qs ++ rest ∧ (∀ q ∈ qs, anyPrefix q = true) ∧ skipPrefixes n bs = (n + qs.length, rest) := by
  induction bs generalizing n with
  | nil => exact ⟨[], [], rfl, by simp, rfl⟩
  | cons b t ih =>
    by_cases hb : anyPrefix b = true
    · obtain ⟨qs, rest, rfl, hqs, hskip⟩ := ih (n + 1)
      refine ⟨b :: qs, rest, rfl, List.forall_mem_cons.2 ⟨hb, hqs⟩, ?_⟩
      rw [skipPrefixes, if_pos hb, hskip, List.length_cons, Nat.add_right_comm, Nat.add_assoc]
    · exact ⟨[], b :: t, rfl, by simp, if_neg hb⟩

/-- A forbidden byte before 62h: the bytes after 62h and the number of those before it decide. -/
theorem decode_forbiddenBefore {n : Nat} {bs tail : List Byte} (h : ForbiddenBefore n bs tail) :
    decode bs = decodeForbidden n tail := by
  obtain ⟨ps, f, qs, rfl, rfl, hps, haddr, hlen, hf, hqs⟩ := h
  obtain ⟨pre, hrun⟩ := exists_prefixRun hps haddr hlen
  exact decode_run_forbidden hrun (not_admittedByte_of_forbiddenByte hf) ((forbiddenPrefix_iff f).2 hf)
    (skipPrefixes_append _ tail fun q hq => (anyPrefix_iff q).2 (hqs q hq))

/-- A byte string has 62h behind a run of prefixes, or 62h behind a forbidden byte, or is refused (R120 steps 1 to 3);
`decode_run_escape` and `decode_forbiddenBefore` say what the first two decode to. -/
theorem decode_cases (bs : List Byte) :
    (∃ ps pre t, bs = ps ++ 0x62#8 :: t ∧ PrefixRun ps pre) ∨ (∃ n tail, ForbiddenBefore n bs tail) ∨
      ∃ why, decode bs = .refused why := by
  obtain ⟨ps, rest, rfl, hps, hrest⟩ := exists_admitted_append bs
  by_cases hrep : 2 ≤ ps.count 0x67#8 ∨ ps.count 0x67#8 + 2 ≤ ps.length
  · exact .inr (.inr ⟨_, decode_repeated rest hps hrep⟩)
  have haddr : ps.count 0x67#8 ≤ 1 := by omega
  have hlen : ps.length ≤ ps.count 0x67#8 + 1 := by omega
  obtain ⟨pre, hrun⟩ := exists_prefixRun hps haddr hlen
  cases rest with
  | nil => exact .inr (.inr ⟨_, by rw [List.append_nil, decode_run_nil hrun]⟩)
  | cons b t =>
    have hdec := decode_run (t := t) hrun (hrest b t rfl)
    split_ifs at hdec with hf hb
    · obtain ⟨qs, _ | ⟨e, u⟩, rfl, hqs, hskip⟩ := skipPrefixes_spec (ps.length + 1) t <;> rw [hskip] at hdec
      · exact .inr (.inr ⟨_, hdec⟩)
      · by_cases he : e = 0x62#8
        · subst he
          exact .inr (.inl ⟨_, u, ps, b, qs, rfl, rfl, hps, haddr, hlen, (forbiddenPrefix_iff b).1 hf,
            fun q hq => (anyPrefix_iff q).1 (hqs q hq)⟩)
        · exact .inr (.inr ⟨_, hdec.trans (if_neg he)⟩)
    · subst hb
      exact .inl ⟨ps, pre, t, rfl, hrun⟩
    · exact .inr (.inr ⟨_, hdec⟩)

theorem decodeForbidden_of_instr {n : Nat} {t rest : List Byte} {i : Instr} (h : decode (0x62#8 :: t) = .instr i rest) :
    decodeForbidden n t = if 15 < n + i.length then .tooLong else .invalid .forbiddenPrefix := by
  rw [decode_escape] at h
  rw [decodeForbidden, h]

theorem decodeForbidden_of_ne_instr {n : Nat} {t : List Byte} (h : ∀ i rest, decode (0x62#8 :: t) ≠ .instr i rest) :
    decodeForbidden n t = .invalid .forbiddenPrefix := by
  rw [decode_escape] at h
  unfold decodeForbidden
  split
  · rename_i i rest hi
    exact absurd hi (h i rest)
  · rfl
  · rfl
  · rfl

/-- Behind a forbidden byte nothing is an instruction. -/
theorem decodeForbidden_ne_instr (n : Nat) (t : List Byte) (i : Instr) (rest : List Byte) :
    decodeForbidden n t ≠ .instr i rest := by
  by_cases h : ∃ j u, decode (0x62#8 :: t) = .instr j u
  · obtain ⟨j, u, hj⟩ := h
    rw [decodeForbidden_of_instr hj]
    split_ifs <;> exact Decoded.noConfusion
  · rw [decodeForbidden_of_ne_instr fun j u hj => h ⟨j, u, hj⟩]
    exact Decoded.noConfusion

/-! ### The EVEX part, branch by branch (R118, R120 steps 4 to 15) -/

theorem signednessOf_eq_some_iff {op : Byte} {sg : Signedness} : signednessOf op = some sg ↔ op = sg.opcode := by
  unfold signednessOf
  cases sg <;> split_ifs <;> simp_all [Signedness.opcode]

theorem vecLenOf_eq_none_iff (ll : BitVec 2) : vecLenOf ll = none ↔ ll = 3#2 := by
  revert ll
  decide

section Evex

variable {pre : Prefixes} {p0 p1 p2 op modrm : Byte} {tail : List Byte}

/-- The fixed fields of P0, P1 and the opcode are those of a mnemonic's rows (R85, R86, R89 to R91, R93). -/
structure RowFields (p0 p1 op : Byte) (sg : Signedness) : Prop where
  reservedP0 : field p0 2 2 = 0#2
  fixedP1 : p1.getLsbD 2 = true
  map : field p0 0 2 = 3#2
  opcode : signednessOf op = some sg
  pp : field p1 0 2 = 1#2
  w : p1.getLsbD 7 = true

/-- The fields are a mnemonic's exactly when they are neither reserved nor a neighbour's (R118). -/
theorem exists_rowFields_iff : (∃ sg, RowFields p0 p1 op sg) ↔
    ¬(field p0 2 2 ≠ 0#2 ∨ p1.getLsbD 2 = false ∨ field p0 0 2 = 0#2) ∧
      ¬(field p0 0 2 ≠ 3#2 ∨ (op ≠ 0x3E#8 ∧ op ≠ 0x3F#8) ∨ field p1 0 2 ≠ 1#2 ∨ p1.getLsbD 7 = false) := by
  simp only [not_or, not_and_or, not_not, Bool.not_eq_false]
  constructor
  · rintro ⟨sg, h0, h2, hmap, hop, hpp, hw⟩
    rw [signednessOf_eq_some_iff] at hop
    subst hop
    exact ⟨⟨h0, h2, by rw [hmap]; decide⟩, hmap, by cases sg <;> decide, hpp, hw⟩
  · rintro ⟨⟨h0, h2, -⟩, hmap, rfl | rfl, hpp, hw⟩
    · exact ⟨.unsigned, h0, h2, hmap, rfl, hpp, hw⟩
    · exact ⟨.signed, h0, h2, hmap, rfl, hpp, hw⟩

theorem decodeEvex_reserved (h : field p0 2 2 ≠ 0#2 ∨ p1.getLsbD 2 = false ∨ field p0 0 2 = 0#2) :
    ∃ why, decodeEvex pre (p0 :: p1 :: p2 :: op :: modrm :: tail) = .invalid why := by
  by_cases h0 : field p0 2 2 = 0#2
  · cases h2 : p1.getLsbD 2 with
    | false => exact ⟨.fixedP1, by simp only [decodeEvex, ne_eq, h0, h2, not_true_eq_false, if_true, if_false]⟩
    | true =>
      have hmap : field p0 0 2 = 0#2 := (h.resolve_left (not_not_intro h0)).resolve_left (by simp [h2])
      exact ⟨.reservedMap, by
        simp only [decodeEvex, ne_eq, h0, h2, hmap, not_true_eq_false, if_true, if_false, Bool.true_eq_false]⟩
  · exact ⟨.reservedP0, if_pos h0⟩

theorem decodeEvex_neighbour (hr : ¬(field p0 2 2 ≠ 0#2 ∨ p1.getLsbD 2 = false ∨ field p0 0 2 = 0#2))
    (h : ∀ sg, ¬RowFields p0 p1 op sg) :
    ∃ why, why ≠ .truncated ∧ decodeEvex pre (p0 :: p1 :: p2 :: op :: modrm :: tail) = .refused why := by
  simp only [not_or, not_not, Bool.not_eq_false] at hr
  obtain ⟨h0, h2, hmm⟩ := hr
  simp only [decodeEvex, h0, h2, hmm, ne_eq, not_true_eq_false, if_false, Bool.true_eq_false]
  by_cases hmap : field p0 0 2 = 3#2
  · rw [if_neg (not_not_intro hmap)]
    cases hop : signednessOf op with
    | none => exact ⟨_, DecodeRefusal.noConfusion, rfl⟩
    | some sg =>
      by_cases hpp : field p1 0 2 = 1#2
      · by_cases hw : p1.getLsbD 7 = true
        · exact absurd ⟨h0, h2, hmap, hop, hpp, hw⟩ (h sg)
        · exact ⟨.byteCompare, DecodeRefusal.noConfusion,
            (if_neg (not_not_intro hpp)).trans (if_pos (Bool.eq_false_iff.2 hw))⟩
      · exact ⟨.otherPp, DecodeRefusal.noConfusion, if_pos hpp⟩
  · exact ⟨.otherMap, DecodeRefusal.noConfusion, if_pos hmap⟩

/-- With the fields of a mnemonic's rows, vector length and second source decide (R120 steps 8 and 12 to 15). -/
theorem decodeEvex_of_rowFields {sg : Signedness} (h : RowFields p0 p1 op sg) :
    decodeEvex pre (p0 :: p1 :: p2 :: op :: modrm :: tail) =
      match vecLenOf (field p2 5 2) with
      | none => .invalid .vectorLength
      | some vl =>
        match takeSource2 (inverted p0 6) (inverted p0 5) modrm tail with
        | some (src2, imm8 :: rest) => .instr (.ofForm sg vl (operandsOf pre p0 p1 p2 modrm src2 imm8)) rest
        | _ => .refused .truncated := by
  simp only [decodeEvex, ne_eq, h.reservedP0, h.fixedP1, h.map, h.opcode, h.pp, h.w, not_true_eq_false, if_false,
    Bool.true_eq_false]
  rcases vecLenOf (field p2 5 2) with _ | vl
  · rfl
  · rcases takeSource2 (inverted p0 6) (inverted p0 5) modrm tail with _ | ⟨src2, _ | ⟨imm8, rest⟩⟩ <;> rfl

/-- With a row's fields the bytes are an instruction, or the second source or the immediate is cut off. -/
theorem decodeEvex_row {sg : Signedness} {vl : VecLen} (h : RowFields p0 p1 op sg)
    (hl : vecLenOf (field p2 5 2) = some vl) :
    (∃ i rest, decodeEvex pre (p0 :: p1 :: p2 :: op :: modrm :: tail) = .instr i rest) ∨
      (tail.length < 6 ∧ decodeEvex pre (p0 :: p1 :: p2 :: op :: modrm :: tail) = .refused .truncated) := by
  rw [decodeEvex_of_rowFields h, hl]
  rcases Nat.lt_or_ge tail.length 6 with hlen | hlen
  · rcases takeSource2 (inverted p0 6) (inverted p0 5) modrm tail with _ | ⟨src2, _ | ⟨imm8, rest⟩⟩
    · exact .inr ⟨hlen, rfl⟩
    · exact .inr ⟨hlen, rfl⟩
    · exact .inl ⟨_, rest, rfl⟩
  · obtain ⟨src2, imm8, rest, hs⟩ := takeSource2_exists (inverted p0 6) (inverted p0 5) modrm hlen
    rw [hs]
    exact .inl ⟨_, rest, rfl⟩

end Evex

/-! ### Forms with given parameters -/

@[simp] theorem Instr.signedness_ofForm (sg : Signedness) (vl : VecLen) (o : Operands) :
    (Instr.ofForm sg vl o).signedness = sg := by cases sg <;> cases vl <;> rfl

@[simp] theorem Instr.vecLen_ofForm (sg : Signedness) (vl : VecLen) (o : Operands) :
    (Instr.ofForm sg vl o).vecLen = vl := by cases sg <;> cases vl <;> rfl

@[simp] theorem Instr.operands_ofForm (sg : Signedness) (vl : VecLen) (o : Operands) :
    (Instr.ofForm sg vl o).operands = o := by cases sg <;> cases vl <;> rfl

theorem Machine.withPrefixes_withPrefixes (i : Instr) (p q : Prefixes) :
    withPrefixes (withPrefixes i p) q = withPrefixes i q := by
  simp only [withPrefixes, Instr.signedness_ofForm, Instr.vecLen_ofForm, Instr.operands_ofForm]

/-! ### The table's rows (R117) -/

/-- With all bytes there, the form is that of the fields. -/
theorem decodeEvex_form_iff {pre : Prefixes} {p0 p1 p2 op modrm : Byte} {tail : List Byte} {sg : Signedness}
    {vl : VecLen} (hlen : 6 ≤ tail.length) :
    (∃ i rest, decodeEvex pre (p0 :: p1 :: p2 :: op :: modrm :: tail) = .instr i rest ∧
        i.signedness = sg ∧ i.vecLen = vl) ↔
      RowFields p0 p1 op sg ∧ vecLenOf (field p2 5 2) = some vl := by
  constructor
  · rintro ⟨i, rest, hd, rfl, rfl⟩
    obtain ⟨_, _, _, _, _, _, sg, vl, src2, imm8, hbytes, h0, h2, hmap, hop, hpp, hw, hl, -, rfl⟩ := decodeEvex_instr hd
    simp only [List.cons.injEq] at hbytes
    obtain ⟨rfl, rfl, rfl, rfl, rfl, rfl⟩ := hbytes
    rw [Instr.signedness_ofForm, Instr.vecLen_ofForm]
    exact ⟨⟨h0, h2, hmap, hop, hpp, hw⟩, hl⟩
  · rintro ⟨h, hl⟩
    obtain ⟨src2, imm8, rest, hs⟩ := takeSource2_exists (inverted p0 6) (inverted p0 5) modrm hlen
    exact ⟨_, rest, by rw [decodeEvex_of_rowFields h, hl, hs], by simp, by simp⟩

theorem word48_and (a0 a1 a2 a3 a4 a5 b0 b1 b2 b3 b4 b5 : Byte) :
    word48 a0 a1 a2 a3 a4 a5 &&& word48 b0 b1 b2 b3 b4 b5 =
      word48 (a0 &&& b0) (a1 &&& b1) (a2 &&& b2) (a3 &&& b3) (a4 &&& b4) (a5 &&& b5) := by
  simp only [word48]
  rw [BitVec.and_append, BitVec.and_append, BitVec.and_append, BitVec.and_append, BitVec.and_append]

theorem append_eq_append_iff {v w : Nat} {a c : BitVec v} {b d : BitVec w} : a ++ b = c ++ d ↔ a = c ∧ b = d := by
  refine ⟨fun h => ⟨?_, ?_⟩, fun ⟨ha, hb⟩ => by rw [ha, hb]⟩
  · simpa only [BitVec.extractLsb'_append_eq_left] using congrArg (BitVec.extractLsb' w v) h
  · simpa only [BitVec.setWidth_append_eq_right] using congrArg (BitVec.setWidth w) h

theorem word48_inj {a0 a1 a2 a3 a4 a5 b0 b1 b2 b3 b4 b5 : Byte} :
    word48 a0 a1 a2 a3 a4 a5 = word48 b0 b1 b2 b3 b4 b5 ↔
      a0 = b0 ∧ a1 = b1 ∧ a2 = b2 ∧ a3 = b3 ∧ a4 = b4 ∧ a5 = b5 := by
  simp only [word48]
  rw [append_eq_append_iff, append_eq_append_iff, append_eq_append_iff, append_eq_append_iff, append_eq_append_iff]

theorem tableMask_eq : tableMask = word48 0xFF#8 0x0F#8 0x87#8 0x60#8 0xFF#8 0x00#8 := by decide

/-- P2 of a row's match value: its vector length alone (R92). -/
def VecLen.tableP2 (vl : VecLen) : Byte := (0#1 ++ (vl.code ++ 0#5) : BitVec (1 + (2 + 5)))

theorem Instr.tableMatch_eq (r : Instr) :
    r.tableMatch = word48 0x62#8 0x03#8 0x85#8 r.vecLen.tableP2 r.signedness.opcode 0x00#8 := by
  cases r <;> simp only [Instr.tableMatch, Instr.vecLen, Instr.signedness] <;> decide

theorem maskedP0_iff (b : Byte) : b &&& 0x0F#8 = 0x03#8 ↔ field b 2 2 = 0#2 ∧ field b 0 2 = 3#2 := by
  revert b
  decide +kernel

theorem maskedP1_iff (b : Byte) :
    b &&& 0x87#8 = 0x85#8 ↔ b.getLsbD 2 = true ∧ field b 0 2 = 1#2 ∧ b.getLsbD 7 = true := by
  revert b
  decide +kernel

theorem maskedP2_iff (vl : VecLen) (b : Byte) : b &&& 0x60#8 = vl.tableP2 ↔ vecLenOf (field b 5 2) = some vl := by
  revert b
  cases vl <;> decide +kernel

/-- The mask keeps the fields that select a row, and the match value gives them the row's values. -/
theorem word48_match_iff {r : Instr} {p0 p1 p2 op modrm : Byte} :
    word48 0x62#8 p0 p1 p2 op modrm &&& tableMask = r.tableMatch ↔
      RowFields p0 p1 op r.signedness ∧ vecLenOf (field p2 5 2) = some r.vecLen := by
  rw [tableMask_eq, word48_and, r.tableMatch_eq, word48_inj, maskedP0_iff, maskedP1_iff, maskedP2_iff,
    show op &&& 0xFF#8 = op from BitVec.and_allOnes, ← signednessOf_eq_some_iff]
  constructor
  · rintro ⟨-, ⟨h0, hmap⟩, ⟨h2, hpp, hw⟩, hl, hop, -⟩
    exact ⟨⟨h0, h2, hmap, hop, hpp, hw⟩, hl⟩
  · rintro ⟨⟨h0, h2, hmap, hop, hpp, hw⟩, hl⟩
    exact ⟨by decide, ⟨h0, hmap⟩, ⟨h2, hpp, hw⟩, hl, hop, BitVec.and_zero⟩

/-! ### Encoding and decoding (R120, R121) -/

/-- The operand fields read from the encoded bytes are those encoded. -/
theorem operandsOf_encode (vl : VecLen) (o : Operands) :
    operandsOf o.pre (encodeP0 o) (encodeP1 o) (encodeP2 vl o) (byte233 o.src2.mod o.dest o.src2.rm) o.src2 o.imm8 =
      o := by
  obtain ⟨hr, -, -, hrHi, -, -⟩ := encodeP0_fields o
  obtain ⟨-, -, -, hv⟩ := encodeP1_fields o
  obtain ⟨hz, -, hb, hV, ha⟩ := encodeP2_fields vl o
  simp only [operandsOf, hr, hrHi, hz, hb, hV, hv, ha, modrmReg_byte233]
  have hsrc1 : (BitVec.ofBool (o.src1.getLsbD 4) ++ o.src1.setWidth 4 : BitVec (1 + 4)) = o.src1 := by
    generalize o.src1 = n
    revert n
    decide
  rw [hsrc1]

theorem rowFields_encode (o : Operands) (sg : Signedness) : RowFields (encodeP0 o) (encodeP1 o) sg.opcode sg := by
  obtain ⟨-, -, -, -, h0, hmap⟩ := encodeP0_fields o
  obtain ⟨hw, h2, hpp, -⟩ := encodeP1_fields o
  exact ⟨h0, h2, hmap, signednessOf_opcode sg, hpp, hw⟩

/-- The EVEX part of an encoded instruction reads back. -/
theorem decodeEvex_encode (sg : Signedness) (vl : VecLen) (o : Operands) (ho : o.src2.encodable = true)
    (rest : List Byte) :
    decodeEvex o.pre (encodeP0 o :: encodeP1 o :: encodeP2 vl o :: sg.opcode :: byte233 o.src2.mod o.dest o.src2.rm ::
      (o.src2.bytes ++ o.imm8 :: rest)) = .instr (.ofForm sg vl o) rest := by
  obtain ⟨-, hx, hb, -, -, -⟩ := encodeP0_fields o
  obtain ⟨-, hl, -, -, -⟩ := encodeP2_fields vl o
  have hs := takeSource2_encode o.src2 ho o.dest (o.imm8 :: rest)
  rw [decodeEvex_of_rowFields (rowFields_encode o sg), hl, vecLenOf_code, hx, hb, hs]
  simp only [operandsOf_encode]

theorem encode_append (i : Instr) (rest : List Byte) :
    encode i ++ rest = i.operands.pre.bytes ++ 0x62#8 :: encodeP0 i.operands :: encodeP1 i.operands ::
      encodeP2 i.vecLen i.operands :: i.signedness.opcode ::
        byte233 i.operands.src2.mod i.operands.dest i.operands.src2.rm ::
          (i.operands.src2.bytes ++ i.operands.imm8 :: rest) := by
  simp [encode]

/-! ### What a decoded instruction is (R83, R208) -/

/-- No branch of the EVEX part answers that an instruction is too long (R83). -/
theorem decodeEvex_ne_tooLong (pre : Prefixes) (t : List Byte) : decodeEvex pre t ≠ .tooLong := by
  unfold decodeEvex
  repeat' split
  all_goals exact Decoded.noConfusion

/-- Only an instruction behind a forbidden byte decodes as too long. -/
theorem decode_tooLong {bs : List Byte} (h : decode bs = .tooLong) :
    ∃ n tail, ForbiddenBefore n bs tail ∧ ∃ i rest, decode (0x62#8 :: tail) = .instr i rest ∧ 15 < n + i.length := by
  obtain ⟨ps, pre, t, rfl, hrun⟩ | ⟨n, tail, hbefore⟩ | ⟨why, hwhy⟩ := decode_cases bs
  · exact absurd ((decode_run_escape hrun t).symm.trans h) (decodeEvex_ne_tooLong pre t)
  · refine ⟨n, tail, hbefore, ?_⟩
    rw [decode_forbiddenBefore hbefore] at h
    by_cases hi : ∃ i rest, decode (0x62#8 :: tail) = .instr i rest
    · obtain ⟨i, rest, hi⟩ := hi
      rw [decodeForbidden_of_instr hi] at h
      split_ifs at h with hlen
      exact ⟨i, rest, hi, hlen⟩
    · rw [decodeForbidden_of_ne_instr fun i rest hi' => hi ⟨i, rest, hi'⟩] at h
      cases h
  · rw [hwhy] at h
    cases h

/-- An instruction stands behind a run of the prefixes it names and 62h. -/
theorem decode_instr_run {bs rest : List Byte} {i : Instr} (h : decode bs = .instr i rest) :
    ∃ ps t, bs = ps ++ 0x62#8 :: t ∧ PrefixRun ps i.operands.pre ∧ decodeEvex i.operands.pre t = .instr i rest := by
  obtain ⟨ps, pre, t, rfl, hrun⟩ | ⟨n, tail, hbefore⟩ | ⟨why, hwhy⟩ := decode_cases bs
  · rw [decode_run_escape hrun] at h
    obtain rfl : i.operands.pre = pre := by
      obtain ⟨_, _, _, _, _, _, _, _, _, _, -, -, -, -, -, -, -, -, -, rfl⟩ := decodeEvex_instr h
      rw [Instr.operands_ofForm]
      rfl
    exact ⟨ps, t, rfl, hrun, h⟩
  · exact absurd ((decode_forbiddenBefore hbefore).symm.trans h) (decodeForbidden_ne_instr n tail i rest)
  · rw [hwhy] at h
    cases h

theorem decodeEvex_encodable {pre : Prefixes} {t rest : List Byte} {i : Instr} (h : decodeEvex pre t = .instr i rest) :
    i.encodable = true := by
  obtain ⟨_, _, _, _, _, _, _, _, _, _, -, -, -, -, -, -, -, -, hs, rfl⟩ := decodeEvex_instr h
  rw [Instr.encodable, Instr.operands_ofForm]
  exact (takeSource2_some hs).1

/-- With other prefixes the bytes after 62h decode to the same form. -/
theorem decodeEvex_instr_withPrefixes {p : Prefixes} {t rest : List Byte} {i : Instr}
    (h : decodeEvex p t = .instr i rest) (q : Prefixes) : decodeEvex q t = .instr (withPrefixes i q) rest := by
  rw [decodeEvex_prefixes] at h ⊢
  cases hd : decodeEvex { seg := none, addr32 := false } t <;> rw [hd] at h <;> cases h
  rw [withPrefixes_withPrefixes]

/-- With other prefixes the bytes after 62h decode to the same answer, where it is no instruction. -/
theorem decodeEvex_of_ne_instr {t : List Byte} (p : Prefixes)
    (h : ∀ j rest, decodeEvex { seg := none, addr32 := false } t ≠ .instr j rest) :
    decodeEvex p t = decodeEvex { seg := none, addr32 := false } t := by
  rw [decodeEvex_prefixes p]
  cases hd : decodeEvex { seg := none, addr32 := false } t with
  | instr j rest => exact absurd hd (h j rest)
  | invalid why => rfl
  | tooLong => rfl
  | refused why => rfl

theorem Disp.length_le (d : Disp) : d.length ≤ 4 := by cases d <;> simp [Disp.length]

theorem Source2.length_le (s : Source2) : s.length ≤ 5 := by
  rcases s with n | ⟨b, d⟩ | d | ⟨b, sc, i, d⟩ | ⟨sc, i, d⟩
  · exact Nat.zero_le _
  · exact Nat.le_succ_of_le d.length_le
  · exact Nat.le_succ 4
  · show 1 + d.length ≤ 5
    have := d.length_le
    omega
  · exact le_refl 5

theorem Instr.length_bounds (i : Instr) : 7 ≤ i.length ∧ i.length ≤ 14 := by
  have hseg := Bool.toNat_le i.operands.pre.seg.isSome
  have haddr := Bool.toNat_le i.operands.pre.addr32
  have hsrc := i.operands.src2.length_le
  simp only [Instr.length, Operands.length, Prefixes.length]
  omega

namespace Machine

/-! ### A step at bytes that are no instruction of this family (R120, R194) -/

theorem step_of_fetch_invalid {s : State} {why : InvalidEncoding} (hr : s.fetchRefusal = none)
    (hf : s.fetch = .invalid why) :
    step s = .fault (.raised { vector := 6, errorCode := none, cr2 := none, rip := s.rip }) := by
  rw [step, hr, hf]
  rfl

theorem step_of_fetch_tooLong {s : State} (hr : s.fetchRefusal = none) (hf : s.fetch = .tooLong) :
    step s = .fault (.raised { vector := 13, errorCode := some 0#32, cr2 := none, rip := s.rip }) := by
  rw [step, hr, hf]
  rfl

theorem step_of_fetch_refused {s : State} {why : DecodeRefusal} (hr : s.fetchRefusal = none)
    (hf : s.fetch = .refused why) : step s = .refused (.notThisFamily why) := by
  rw [step, hr, hf]

/-! ### The immediate (R113) -/

theorem predicateBits_and_seven (imm8 : BitVec 8) : predicateBits (imm8 &&& 7#8) = predicateBits imm8 := by
  revert imm8
  decide +kernel

/-- A form sees its immediate as the predicate only: length, addresses and checks do not look at it. -/
theorem compareWords_withImm8 {sg : Signedness} {vl : VecLen} {o : Operands} {s : State} {imm8 : BitVec 8}
    (h : predicateBits imm8 = predicateBits o.imm8) :
    compareWords sg vl { o with imm8 := imm8 } s = compareWords sg vl o s := by
  simp only [compareWords, h]
  rfl

/-! ### Effective and linear addresses (R102 to R111) -/

theorem Disp.value_eq_amount (vl : VecLen) (d : Disp) : Disp.value vl d = BitVec.ofInt 64 (Disp.amount vl d) := by
  cases d with
  | zero => rfl
  | disp8 d =>
    rw [Disp.amount, BitVec.ofInt_mul, BitVec.ofInt_natCast]
    rfl
  | disp32 d => rfl

/-- A scaled index is the index times a power of 2 (R104, R108). -/
theorem State.indexValue_shiftLeft (s : State) (i : BitVec 4) (n : Nat) :
    s.indexValue i <<< n = if i = 4#4 then 0#64 else s.gpr[i.toNat]'i.isLt * BitVec.ofNat 64 (2 ^ n) := by
  rw [State.indexValue]
  split_ifs with hi
  · exact BitVec.zero_shiftLeft n
  · exact BitVec.eq_of_toNat_eq (by simp [State.gprReg, Nat.shiftLeft_eq])

/-- Under 67h the address is the low 32 bits of the 64-bit sum (R111). -/
theorem ea32_eq (base index disp : Addr) (scale : Nat) :
    ea32 base index disp scale = ((ea64 base index disp scale).setWidth 32).setWidth 64 := by
  have h : 32 ≤ 64 := by decide
  rw [ea32, ea64, BitVec.setWidth_add _ _ h, BitVec.setWidth_add _ _ h, BitVec.setWidth_shiftLeft_of_le h]

/-- The sum is taken modulo 2^64, and 67h keeps its low 32 bits (R108, R111). -/
theorem State.effectiveAddress_eq (s : State) (vl : VecLen) (o : Operands) (m : MemOperand) :
    s.effectiveAddress vl o m =
      let sum := s.baseValue (s.nextRip o) m + s.indexPart m <<< MemOperand.scale m + MemOperand.dispValue vl m
      if o.pre.addr32 = true then (sum.setWidth 32).setWidth 64 else sum := by
  simp only [State.effectiveAddress, ea32_eq, ea64]

theorem extended_toNat : ∀ (x : Bool) (r : BitVec 3), (extended x r).toNat = 8 * x.toNat + r.toNat := by decide

theorem extended_eq_four_iff : ∀ (x : Bool) (r : BitVec 3), extended x r = 4#4 ↔ x = false ∧ r = 4#3 := by decide

theorem State.segBase_eq (s : State) (seg : Option SegPrefix) :
    s.segBase seg = if seg = some .fs then s.fsBase else if seg = some .gs then s.gsBase else 0#64 := by
  rcases seg with _ | _ | _ | _ | _ | _ | _ <;> rfl

/-! ### The segment and the canonical check (R109, R197 to R199) -/

theorem MemOperand.defaultSegment_eq_ss_iff (m : MemOperand) : MemOperand.defaultSegment m = .ss ↔
    (∃ b d, m = .base b d ∧ (b = 4#4 ∨ b = 5#4)) ∨ ∃ b sc i d, m = .sib b sc i d ∧ (b = 4#4 ∨ b = 5#4) := by
  cases m <;> simp [MemOperand.defaultSegment, or_iff_not_imp_left]

theorem segmentOf_eq_ss_iff (o : Operands) (m : MemOperand) : segmentOf o.pre.seg m = .ss ↔ StackAccess o m := by
  rw [StackAccess, ← MemOperand.defaultSegment_eq_ss_iff]
  rcases o.pre.seg with _ | _ | _ | _ | _ | _ | _ <;> simp [segmentOf]

/-- A byte that counts and is not canonical is found first; the segment chooses the exception. -/
theorem State.memoryCheck_of_nonCanonical {s : State} {vl : VecLen} {o : Operands} {m : MemOperand}
    (h : ∃ a ∈ s.countedBytes vl o.mask (s.linearAddress vl o m), isCanonical s.cfg.vaBits a = false) :
    s.memoryCheck vl o m = some ((if segmentOf o.pre.seg m = .ss then Exception.ss else Exception.gp).fault s) :=
  if_pos (by simpa using h)

end Machine

end Sys2Proof

open Sys2Proof Sys2Proof.Machine

/-- Settles O1: the encoded prefixes are a run, and every field read from the EVEX part is the one encoded. -/
theorem decodeOfEncode : Obligations.DecodeOfEncode := by
  intro i rest h
  rw [encode_append, decode_run_escape (prefixRun_iff_bytes.2 (.inl rfl)), decodeEvex_encode _ _ _ h, Instr.ofForm_self]

/-- Settles O2: an instruction stands behind the run it names; the bytes after 62h do not see the prefixes. -/
theorem decodedInstrTakesItsLength : Obligations.DecodedInstrTakesItsLength := by
  refine ⟨fun bs i rest h => ?_, fun ps t pre hrun => ⟨fun j rest hj => ?_, fun hne => ?_⟩⟩
  · obtain ⟨ps, t, hbs, hrun, ht⟩ := decode_instr_run h
    obtain ⟨hmin, hmax⟩ := i.length_bounds
    exact ⟨decodeEvex_encodable ht, decode_rest h, decode_length h, hmin, hmax, ps, t, hbs, hrun,
      (decode_escape t).trans (decodeEvex_instr_withPrefixes ht _)⟩
  · rw [decode_escape] at hj
    rw [decode_run_escape hrun, decodeEvex_instr_withPrefixes hj]
  · rw [decode_escape] at hne ⊢
    rw [decode_run_escape hrun, decodeEvex_of_ne_instr pre hne]

/-- Settles O4: the mask and the match value are the fields a row fixes. -/
theorem tableRowSelectsForm : Obligations.TableRowSelectsForm := by
  intro r p0 p1 p2 op modrm tail hlen
  rw [decode_escape, word48_match_iff]
  exact decodeEvex_form_iff hlen

/-- Settles O5: the reserved fields are checked first, then those of the rows, the vector length, and the second source,
which six bytes always suffice for. -/
theorem neighbourEncodings : Obligations.NeighbourEncodings := by
  intro p0 p1 p2 op modrm tail
  simp only [decode_escape]
  split_ifs with hreserved hneighbour hlength
  · exact decodeEvex_reserved hreserved
  · exact decodeEvex_neighbour hreserved fun sg h => (exists_rowFields_iff.1 ⟨sg, h⟩).2 hneighbour
  · obtain ⟨sg, h⟩ := exists_rowFields_iff.2 ⟨hreserved, hneighbour⟩
    have hl : vecLenOf (field p2 5 2) = none := (vecLenOf_eq_none_iff _).2 hlength
    rw [decodeEvex_of_rowFields h, hl]
  · obtain ⟨sg, h⟩ := exists_rowFields_iff.2 ⟨hreserved, hneighbour⟩
    obtain ⟨vl, hl⟩ := Option.ne_none_iff_exists'.1 (mt (vecLenOf_eq_none_iff _).1 hlength)
    exact decodeEvex_row h hl

/-- Settles O6: what follows a forbidden byte decides between #UD and #GP(0), and nothing else is too long. -/
theorem forbiddenPrefixRaisesUd : Obligations.ForbiddenPrefixRaisesUd := by
  refine ⟨fun s n tail hfetch hbefore => ⟨fun i rest hi => ?_, fun hi => ?_⟩, fun bs hbs => ?_⟩
  · have hdec := (decode_forbiddenBefore hbefore).trans (decodeForbidden_of_instr hi)
    split_ifs at hdec ⊢ with hlen
    · exact step_of_fetch_tooLong hfetch hdec
    · exact step_of_fetch_invalid hfetch hdec
  · exact step_of_fetch_invalid hfetch ((decode_forbiddenBefore hbefore).trans (decodeForbidden_of_ne_instr hi))
  · obtain ⟨n, tail, hbefore, i, rest, hi, hlen⟩ := decode_tooLong hbs
    exact ⟨n, tail, i, rest, hbefore, hi, hlen⟩

/-- Settles O7: the loop over prefixes counts the run whole. -/
theorem repeatedPrefixRefused : Obligations.RepeatedPrefixRefused :=
  fun _ rest hps h => decode_repeated rest hps h

/-- Settles O18: the predicate is all a form takes of its immediate. -/
theorem immediateHighBitsIgnored : Obligations.ImmediateHighBitsIgnored := by
  intro sg vl o s
  simp only [exec_eq_compareWords, Instr.signedness_ofForm, Instr.vecLen_ofForm, Instr.operands_ofForm]
  exact compareWords_withImm8 (predicateBits_and_seven o.imm8)

/-- Settles O35: the canonical check goes first, and its exception is the segment's. -/
theorem nonCanonicalOperandFaults : Obligations.NonCanonicalOperandFaults := by
  intro i s m hr hl hm hbad
  have hexec := exec_of_memoryCheck hr hl hm (State.memoryCheck_of_nonCanonical hbad)
  rw [← segmentOf_eq_ss_iff]
  exact ⟨fun hstack => by rw [hexec, if_pos hstack]; rfl, fun hother => by rw [hexec, if_neg hother]; rfl⟩

/-- Settles O46: each shape's base, index part and displacement, summed. -/
theorem effectiveAddressSum : Obligations.EffectiveAddressSum := by
  intro s vl o
  refine ⟨fun b d => ?_, fun d => ?_, fun b sc i d => ?_, fun sc i d => ?_⟩ <;>
    simp only [State.effectiveAddress_eq, State.baseValue, State.indexPart, MemOperand.scale, MemOperand.dispValue,
      Disp.value_eq_amount, State.indexValue_shiftLeft, BitVec.zero_shiftLeft, BitVec.add_zero, BitVec.zero_add] <;>
    rfl

/-- Settles O3: the decoder run on each word. -/
theorem workedWordsDecode : Obligations.WorkedWordsDecode := by
  unfold Obligations.WorkedWordsDecode
  decide

/-- Settles O43: of the four shapes the one whose base is the address after the instruction. -/
theorem ripRelativeAddress : Obligations.RipRelativeAddress := by
  intro s vl o d haddr
  obtain ⟨-, hrip, -, -⟩ := effectiveAddressSum s vl o
  exact (hrip d).trans (if_neg (by simp [haddr]))

/-- Settles O44: a displacement's value is its signed amount, modulo 2^64. -/
theorem compressedDisplacement : Obligations.CompressedDisplacement :=
  fun d e vl => ⟨Disp.value_eq_amount .v128 (.disp8 d), Disp.value_eq_amount .v256 (.disp8 d),
    Disp.value_eq_amount .v512 (.disp8 d), Disp.value_eq_amount vl (.disp32 e)⟩

/-- Settles O45: X and the index field are the number's bits. -/
theorem sibIndexRegister : Obligations.SibIndexRegister := by
  intro s x index
  rw [State.indexValue]
  simp only [extended_eq_four_iff]
  split_ifs with h
  · rfl
  · rw [← extended_toNat, Vector.getElem?_eq_getElem]
    rfl

/-- Settles O47: only FS and GS have a base. -/
theorem segmentOverrides : Obligations.SegmentOverrides := by
  intro s vl o m
  rw [State.linearAddress, State.segBase_eq]

/-- Settles O54: what the step does with each answer of the decoder. -/
theorem stepAtOtherBytes : Obligations.StepAtOtherBytes :=
  fun _ hr => ⟨fun _ => step_of_fetch_invalid hr, step_of_fetch_tooLong hr, fun _ => step_of_fetch_refused hr⟩
end

section
/-! SUPPORT. What the predicates say of swapped, equal, shifted and signed operands, the laws of the comparison bit by
bit, the page's loop, a form with another mask register, and the statements of 40_compare_common.md. -/

namespace Sys2Proof.Machine

/-! ### Words as integers (R133) -/

/-- A signed word is its number less 10000h from 8000h on. -/
theorem wordValue_signed (w : Word) :
    wordValue .signed w = (w.toNat : Int) - if 0x8000 ≤ w.toNat then 65536 else 0 := by
  rw [wordValue, BitVec.toInt_eq_toNat_cond]
  split_ifs <;> omega

theorem wordValue_unsigned (w : Word) : wordValue .unsigned w = (w.toNat : Int) := rfl

theorem wordValue_inj (sg : Signedness) {w1 w2 : Word} : wordValue sg w1 = wordValue sg w2 ↔ w1 = w2 := by
  cases sg with
  | signed => exact BitVec.toInt_inj
  | unsigned => exact Int.natCast_inj.trans BitVec.toNat_inj

/-- The exclusive or with 8000h moves the sign bit only: it adds 8000h where the bit is 0 and takes it off elsewhere. -/
theorem toNat_xor_signBit (w : Word) :
    (w ^^^ 0x8000#16).toNat = if 0x8000 ≤ w.toNat then w.toNat - 0x8000 else w.toNat + 0x8000 := by
  have hlow : (w.toNat ^^^ 0x8000) % 2 ^ 15 = w.toNat % 2 ^ 15 := Nat.xor_mod_two_pow.trans (Nat.xor_zero _)
  have hhigh : (w.toNat ^^^ 0x8000) / 2 ^ 15 = w.toNat / 2 ^ 15 ^^^ 1 := Nat.xor_div_two_pow
  have hw := w.isLt
  change w.toNat ^^^ 0x8000 = _
  split_ifs with hsign
  · have htop : w.toNat / 2 ^ 15 = 1 := by omega
    rw [htop, Nat.xor_self] at hhigh
    omega
  · have htop : w.toNat / 2 ^ 15 = 0 := by omega
    rw [htop, Nat.zero_xor] at hhigh
    omega

/-- A word with its sign bit flipped denotes, unsigned, 8000h more than the word does signed. -/
theorem wordValue_unsigned_xor_signBit (w : Word) :
    wordValue .unsigned (w ^^^ 0x8000#16) = wordValue .signed w + 0x8000 := by
  rw [wordValue_signed, wordValue_unsigned, toNat_xor_signBit]
  split_ifs <;> omega

/-- Where the sign bits are equal, signed and unsigned words lie equally far apart. -/
theorem wordValue_signed_of_msb_eq {w1 w2 : Word} (h : w1.msb = w2.msb) :
    ∃ c, wordValue .signed w1 = wordValue .unsigned w1 + c ∧ wordValue .signed w2 = wordValue .unsigned w2 + c := by
  rw [BitVec.msb_eq_decide, BitVec.msb_eq_decide, decide_eq_decide] at h
  refine ⟨-if 0x8000 ≤ w1.toNat then 65536 else 0, wordValue_signed w1, ?_⟩
  rw [if_congr h rfl rfl]
  exact wordValue_signed w2

/-- Where the sign bits differ, signed and unsigned words lie in opposite orders. -/
theorem wordValue_opposite_of_msb_ne {w1 w2 : Word} (h : w1.msb ≠ w2.msb) :
    (wordValue .signed w1 < wordValue .signed w2 ∧ wordValue .unsigned w2 < wordValue .unsigned w1) ∨
      (wordValue .signed w2 < wordValue .signed w1 ∧ wordValue .unsigned w1 < wordValue .unsigned w2) := by
  have h1 := w1.isLt
  have h2 := w2.isLt
  rw [BitVec.msb_eq_decide, BitVec.msb_eq_decide, Ne, decide_eq_decide] at h
  simp only [wordValue_signed, wordValue_unsigned]
  split_ifs <;> omega

/-! ### The predicates (R131, R132) -/

/-- The source's table, by number (R131). -/
theorem predicateTable_getElem? (imm8 : BitVec 8) :
    [Predicate.eq, .lt, .le, .never, .neq, .nlt, .nle, .always][imm8.toNat % 8]? =
      some (predicateOf (predicateBits imm8)) := by
  have htable : ∀ p : BitVec 3,
      [Predicate.eq, .lt, .le, .never, .neq, .nlt, .nle, .always][p.toNat]? = some (predicateOf p) := by decide
  rw [← htable, predicateBits, BitVec.extractLsb'_toNat, Nat.shiftRight_zero]

/-- The predicate that holds exactly where this one does not. -/
def Predicate.negation : Predicate → Predicate
  | .eq => .neq
  | .lt => .nlt
  | .le => .nle
  | .never => .always
  | .neq => .eq
  | .nlt => .lt
  | .nle => .le
  | .always => .never

theorem Predicate.holds_negation (op : Predicate) (a b : Int) :
    Predicate.holds (Predicate.negation op) a b = !Predicate.holds op a b := by
  cases op <;> simp [Predicate.negation, Predicate.holds]

/-- Bit 2 of the number negates the predicate (R131). -/
theorem predicateOf_xor_four : ∀ p : BitVec 3, predicateOf (p ^^^ 4#3) = Predicate.negation (predicateOf p) := by
  decide

/-- The predicate that says the same of the operands swapped. -/
def Predicate.mirror : Predicate → Predicate
  | .eq => .eq
  | .lt => .nle
  | .le => .nlt
  | .never => .never
  | .neq => .neq
  | .nlt => .le
  | .nle => .lt
  | .always => .always

theorem Predicate.holds_mirror (op : Predicate) (a b : Int) :
    Predicate.holds (Predicate.mirror op) b a = Predicate.holds op a b := by
  rw [Bool.eq_iff_iff]
  cases op <;> simp [Predicate.mirror, Predicate.holds, eq_comm (a := b)]

/-- A comparison depends on the difference of its operands only. -/
theorem Predicate.holds_add_right (op : Predicate) (a b c : Int) :
    Predicate.holds op (a + c) (b + c) = Predicate.holds op a b := by
  cases op <;> simp [Predicate.holds]

/-- Of an integer and itself EQ, LE, NLT and TRUE hold. -/
theorem Predicate.holds_self (p : BitVec 3) (a : Int) :
    Predicate.holds (predicateOf p) a a = decide (p = 0#3 ∨ p = 2#3 ∨ p = 5#3 ∨ p = 7#3) := by
  have hzero : ∀ q : BitVec 3,
      Predicate.holds (predicateOf q) 0 0 = decide (q = 0#3 ∨ q = 2#3 ∨ q = 5#3 ∨ q = 7#3) := by decide
  rw [← hzero, ← Predicate.holds_add_right _ 0 0 a, Int.zero_add]

/-- EQ, FALSE, NEQ and TRUE are the same of signed and of unsigned words. -/
theorem holds_signed_of_unordered {p : BitVec 3} (hp : p = 0#3 ∨ p = 3#3 ∨ p = 4#3 ∨ p = 7#3) (w1 w2 : Word) :
    Predicate.holds (predicateOf p) (wordValue .signed w1) (wordValue .signed w2) =
      Predicate.holds (predicateOf p) (wordValue .unsigned w1) (wordValue .unsigned w2) := by
  rcases hp with rfl | rfl | rfl | rfl <;> simp [predicateOf, Predicate.holds, wordValue_inj]

/-- LT, LE, NLT and NLE differ on operands in opposite orders. -/
theorem Predicate.holds_ne_of_opposite {p : BitVec 3} (hp : p = 1#3 ∨ p = 2#3 ∨ p = 5#3 ∨ p = 6#3) {a b c d : Int}
    (hab : a < b) (hdc : d < c) :
    Predicate.holds (predicateOf p) a b ≠ Predicate.holds (predicateOf p) c d := by
  rcases hp with rfl | rfl | rfl | rfl <;>
    simp [predicateOf, Predicate.holds, hab, hab.le, hdc.not_ge, hdc.not_gt]

/-- LT, LE, NLT and NLE are the same of signed and of unsigned words exactly where the sign bits are. -/
theorem holds_signed_iff_of_ordered {p : BitVec 3} (hp : p = 1#3 ∨ p = 2#3 ∨ p = 5#3 ∨ p = 6#3) (w1 w2 : Word) :
    Predicate.holds (predicateOf p) (wordValue .signed w1) (wordValue .signed w2) =
      Predicate.holds (predicateOf p) (wordValue .unsigned w1) (wordValue .unsigned w2) ↔ w1.msb = w2.msb := by
  constructor
  · contrapose!
    intro hne
    obtain ⟨hs, hu⟩ | ⟨hs, hu⟩ := wordValue_opposite_of_msb_ne hne
    · exact Predicate.holds_ne_of_opposite hp hs hu
    · exact (Predicate.holds_ne_of_opposite hp hu hs).symm
  · intro heq
    obtain ⟨c, h1, h2⟩ := wordValue_signed_of_msb_eq heq
    rw [h1, h2, Predicate.holds_add_right]

/-! ### Lanes (R134, R135) -/

theorem lane_xor (v1 v2 : Vec) (j : Nat) : lane (v1 ^^^ v2) j = lane v1 j ^^^ lane v2 j := BitVec.extractLsb'_xor

theorem lane_signBits {vl : VecLen} {j : Nat} (hj : j < vl.lanes) : lane signBits j = 0x8000#16 := by
  have h : ∀ n < 32, lane signBits n = 0x8000#16 := by decide +kernel
  exact h j (Nat.lt_of_lt_of_le hj (VecLen.lanes_le vl))

theorem lane_msb (v : Vec) (j : Nat) : (lane v j).msb = v.getLsbD (16 * j + 15) := by
  rw [BitVec.msb_eq_getLsbD_last, lane_getLsbD]
  rfl

/-! ### The whole result (R136 to R138) -/

/-- The result is the active lanes where the comparison is true (R136). -/
theorem vpcmp_testBit_activeOnes (sg : Signedness) (vl : VecLen) (p : BitVec 3) (s1 s2 : Vec) (m : Option MaskVal)
    (j : Nat) :
    (vpcmp sg vl p s1 s2 m).testBit j = ((activeOnes vl m).testBit j && laneTrue sg p s1 s2 j) := by
  rw [vpcmp_testBit, activeOnes_testBit, Bool.and_assoc]

/-- Results are equal where the comparisons of the lanes are. -/
theorem vpcmp_eq_of_laneTrue {sg sg' : Signedness} {vl : VecLen} {p p' : BitVec 3} {s1 s2 t1 t2 : Vec}
    (h : ∀ j < vl.lanes, laneTrue sg p s1 s2 j = laneTrue sg' p' t1 t2 j) (m : Option MaskVal) :
    vpcmp sg vl p s1 s2 m = vpcmp sg' vl p' t1 t2 m := by
  apply Nat.eq_of_testBit_eq
  intro j
  rw [vpcmp_testBit, vpcmp_testBit]
  by_cases hj : j < vl.lanes
  · rw [h j hj]
  · simp [hj]

/-- A comparison that is the same in every lane gives every active lane or 0. -/
theorem vpcmp_of_laneTrue_const {sg : Signedness} {vl : VecLen} {p : BitVec 3} {s1 s2 : Vec} {b : Bool}
    (h : ∀ j, laneTrue sg p s1 s2 j = b) (m : Option MaskVal) :
    vpcmp sg vl p s1 s2 m = if b = true then activeOnes vl m else 0 := by
  apply Nat.eq_of_testBit_eq
  intro j
  rw [vpcmp_testBit_activeOnes, h]
  cases b <;> simp

/-- A predicate's mirror gives the same result of the sources swapped. -/
theorem vpcmp_swap {p q : BitVec 3} (h : predicateOf q = Predicate.mirror (predicateOf p)) (sg : Signedness)
    (vl : VecLen) (s1 s2 : Vec) (m : Option MaskVal) : vpcmp sg vl p s1 s2 m = vpcmp sg vl q s2 s1 m :=
  vpcmp_eq_of_laneTrue (fun j _ => by rw [laneTrue, laneTrue, h, Predicate.holds_mirror]) m

/-- A longer form's low bits are the shorter form's result. -/
theorem vpcmp_mod_two_pow_lanes {vl vl' : VecLen} (h : vl.lanes ≤ vl'.lanes) (sg : Signedness) (p : BitVec 3)
    (s1 s2 : Vec) (m : Option MaskVal) : vpcmp sg vl' p s1 s2 m % 2 ^ vl.lanes = vpcmp sg vl p s1 s2 m := by
  apply Nat.eq_of_testBit_eq
  intro j
  rw [Nat.testBit_mod_two_pow, vpcmp_testBit, vpcmp_testBit]
  by_cases hj : j < vl.lanes
  · simp [hj, Nat.lt_of_lt_of_le hj h]
  · simp [hj]

/-! ### The page's loop (R138, R139) -/

theorem setMaskBit_testBit (v : MaskVal) (i : Nat) (b : Bool) (j : Nat) :
    (setMaskBit v i b).testBit j = if j = i then b else v.testBit j := by
  rw [setMaskBit]
  by_cases hj : j = i
  · subst hj
    cases b <;> simp
  · have hij : i ≠ j := Ne.symm hj
    cases b <;> simp [hj, hij]

section Loop

variable {sg : Signedness} {p : BitVec 3} {s1 s2 : Vec} {mask dest : BitVec 3}

/-- The loop writes DEST only: what is written to DEST next hides it. -/
theorem pageLoop_setK (n : Nat) (s : State) (v : MaskVal) :
    (pageLoop sg p s1 s2 mask dest n s).setK dest v = s.setK dest v := by
  induction n with
  | zero => rfl
  | succ n ih => rw [pageLoop, State.setK_setK, ih]

theorem pageLoop_cfg (n : Nat) (s : State) : (pageLoop sg p s1 s2 mask dest n s).cfg = s.cfg :=
  show ((pageLoop sg p s1 s2 mask dest n s).setK dest 0).cfg = (s.setK dest 0).cfg by rw [pageLoop_setK]

/-- After n iterations DEST's bits below n are the results; every other bit of a mask register is the old one. The bit
of the writemask that iteration n reads is therefore the old one, even where the writemask is DEST. -/
theorem pageLoop_kReg_testBit (n : Nat) (s : State) (r : BitVec 3) {j : Nat} (hj : j < s.cfg.maxKl) :
    ((pageLoop sg p s1 s2 mask dest n s).kReg r).testBit j =
      if r = dest ∧ j < n then laneActive (s.maskOperand mask) j && laneTrue sg p s1 s2 j
      else (s.kReg r).testBit j := by
  induction n generalizing r j with
  | zero => rw [if_neg (fun h => Nat.not_lt_zero j h.2)]; rfl
  | succ n ih =>
    by_cases hr : r = dest
    · subst hr
      rw [pageLoop, State.setK_kReg_same, pageLoop_cfg, Nat.testBit_mod_two_pow, decide_eq_true hj, Bool.true_and,
        setMaskBit_testBit, ih r hj]
      by_cases hn : j = n
      · subst hn
        rw [ih mask hj, State.laneActive_maskOperand]
        simp
      · have hlt : j < n + 1 ↔ j < n := by omega
        simp [hn, hlt]
    · rw [pageLoop, State.setK_kReg_other _ _ (Ne.symm hr), ih r hj]
      simp [hr]

end Loop

/-! ### A form with another value in a mask register (R136, R137) -/

theorem State.observe_setK (s : State) (n : BitVec 3) (v : MaskVal) (la : Addr) (k : Nat) :
    (s.setK n v).observe la k = (s.observe la k).setK n v := by
  simp only [State.observe, State.seenAfter_congr (s := s) (u := s.setK n v) rfl rfl rfl]
  rfl

section OtherMask

variable {s t : State} {n : BitVec 3} {v : MaskVal}

/-- With the same active lanes, the second source reads the same value. -/
theorem State.readSource2_setK {vl : VecLen} {o : Operands} {w : Vec}
    (hm : ∀ j < vl.lanes, laneActive ((s.setK n v).maskOperand o.mask) j = laneActive (s.maskOperand o.mask) j)
    (h : s.readSource2 vl o = .ok (w, t)) : (s.setK n v).readSource2 vl o = .ok (w, t.setK n v) := by
  obtain ⟨r, hr, rfl, rfl⟩ | ⟨m, hmem, ⟨hwrap, hread⟩, rfl, rfl⟩ := State.readSource2_ok h
  · exact State.readSource2_reg _ vl o hr
  · have hbytes := State.countedBytes_congr (s := s) (u := s.setK n v) (la := s.linearAddress vl o m) rfl hm
    have hreadable : (s.setK n v).MemoryReadable vl o m := ⟨hwrap, fun a ha => hread a (hbytes ▸ ha)⟩
    rw [State.readSource2_mem _ vl o hmem hreadable, State.observe_setK,
      State.memRead_congr (s := s) (u := s.setK n v) rfl rfl rfl rfl]
    rfl

/-- With the same active lanes, a form completes with the same result. -/
theorem exec_setK {i : Instr}
    (hm : ∀ j < i.vecLen.lanes, laneActive ((s.setK n v).maskOperand i.operands.mask) j =
      laneActive (s.maskOperand i.operands.mask) j)
    (h : exec i s = .next t) :
    ∃ u, exec i (s.setK n v) = .next u ∧ u.kReg i.operands.dest = t.kReg i.operands.dest := by
  obtain ⟨hr, hl, w, x, hs, rfl⟩ := exec_eq_next_iff.1 h
  refine ⟨_, exec_eq_next_iff.2 ⟨hr, hl, w, _, State.readSource2_setK hm hs, rfl⟩, ?_⟩
  rw [State.complete_kReg_vpcmp, State.complete_kReg_vpcmp]
  exact vpcmp_congr hm (fun _ _ => rfl) fun _ _ => rfl

end OtherMask

/-! ### A step at an instruction (R146) -/

theorem step_of_fetch_instr {s : State} {i : Instr} {rest : List Byte} (hr : s.fetchRefusal = none)
    (hf : s.fetch = .instr i rest) : step s = exec i s := by
  rw [step, hr, hf]

end Sys2Proof.Machine

open Sys2Proof Sys2Proof.Machine

/-- Settles O15: DEST is the result, which has KL bits; another old value of DEST switches no lane on or off. -/
theorem destinationWrittenWhole : Obligations.DestinationWrittenWhole := by
  refine ⟨fun i s t h j hj => ?_, fun i s t v h hmask => exec_setK (fun j _ => ?_) h⟩
  · obtain ⟨-, -, v, u, -, rfl⟩ := exec_eq_next_iff.1 h
    rw [State.complete_kReg_vpcmp, vpcmp_testBit, decide_eq_false (Nat.not_lt.2 hj), Bool.false_and]
  · rw [State.laneActive_maskOperand, State.laneActive_maskOperand]
    obtain hnone | hother := hmask
    · simp [hnone]
    · rw [State.setK_kReg_other s v hother.symm]

/-- Settles O17: the bits that say which lanes are active are below KL, and a mask register holds them all. -/
theorem maskBitsAboveLanesIgnored : Obligations.MaskBitsAboveLanesIgnored := by
  intro i s t v h _ hv
  refine exec_setK (fun j hj => ?_) h
  have hin : j < s.cfg.maxKl := Nat.lt_of_lt_of_le hj (VecLen.lanes_le_maxKl _ _)
  rw [State.laneActive_maskOperand, State.laneActive_maskOperand, State.setK_kReg_same, Nat.testBit_mod_two_pow,
    decide_eq_true hin, Bool.true_and, hv j hj]

/-- Settles O19: the loop's KL iterations leave the result in DEST's low bits, and the last write keeps those only. -/
theorem pageLoopIsVpcmp : Obligations.PageLoopIsVpcmp := by
  intro sg vl p s1 s2 mask dest s
  rw [pageOperation, pageLoop_setK]
  congr 1
  apply Nat.eq_of_testBit_eq
  intro j
  rw [Nat.testBit_and, ones_testBit, vpcmp_testBit]
  by_cases hj : j < vl.lanes
  · rw [pageLoop_kReg_testBit _ _ _ (Nat.lt_of_lt_of_le hj (VecLen.lanes_le_maxKl vl s.cfg))]
    simp [hj]
  · simp [hj]

/-- Settles O20: the table's row with the immediate's number is the predicate of every lane. -/
theorem predicateNumbers : Obligations.PredicateNumbers := by
  intro sg vl imm8 s1 s2 j hj
  rw [predicateTable_getElem?, vpcmp_testBit, decide_eq_true hj]
  rfl

/-- Settles O24: a bit of the result is an active lane's, whose comparison does not look at the writemask. -/
theorem lawRangeAndMask : Obligations.LawRangeAndMask := by
  intro sg vl p s1 s2 m maxKl
  refine ⟨?_, ?_, ?_⟩ <;> apply Nat.eq_of_testBit_eq <;> intro j
  · rw [Nat.testBit_and, vpcmp_testBit, maskNot_testBit, ones_testBit, Nat.zero_testBit]
    cases decide (j < vl.lanes) <;> simp
  · rw [Nat.testBit_and, vpcmp_testBit_activeOnes, maskNot_testBit, Nat.zero_testBit]
    cases (activeOnes vl m).testBit j <;> simp
  · rw [Nat.testBit_and, vpcmp_testBit, vpcmp_testBit, activeOnes_testBit]
    cases decide (j < vl.lanes) <;> simp [laneActive, Bool.and_comm]

/-- Settles O25: in each active lane one of the two comparisons is true. -/
theorem lawComplement : Obligations.LawComplement := by
  intro sg vl p s1 s2 m
  apply Nat.eq_of_testBit_eq
  intro j
  have hnot : laneTrue sg (p ^^^ 4#3) s1 s2 j = !laneTrue sg p s1 s2 j := by
    rw [laneTrue, predicateOf_xor_four, Predicate.holds_negation, laneTrue]
  rw [Nat.testBit_xor, vpcmp_testBit_activeOnes, vpcmp_testBit_activeOnes, hnot]
  cases laneTrue sg p s1 s2 j <;> simp

/-- Settles O26: the two predicates do not look at their operands. -/
theorem lawConstants : Obligations.LawConstants :=
  fun _ _ _ _ m => ⟨vpcmp_of_laneTrue_const (b := false) (fun _ => rfl) m,
    vpcmp_of_laneTrue_const (b := true) (fun _ => rfl) m⟩

/-- Settles O27: each is the other's mirror, EQ and NEQ their own. -/
theorem lawSwap : Obligations.LawSwap :=
  fun sg vl s1 s2 m => ⟨vpcmp_swap rfl sg vl s1 s2 m, vpcmp_swap rfl sg vl s1 s2 m, vpcmp_swap rfl sg vl s1 s2 m,
    vpcmp_swap rfl sg vl s1 s2 m⟩

/-- Settles O28: every lane compares an integer with itself. -/
theorem lawSameSource : Obligations.LawSameSource := by
  intro sg vl p v m
  rw [vpcmp_of_laneTrue_const (fun j => Predicate.holds_self p (wordValue sg (lane v j)))]
  simp only [decide_eq_true_eq]

/-- Settles O29: signed and unsigned order of two words are the same or opposite, as their sign bits are. -/
theorem lawSignedness : Obligations.LawSignedness := by
  refine fun vl p s1 s2 m => ⟨fun hp => ?_, fun hp j _ hactive => ?_⟩
  · exact vpcmp_eq_of_laneTrue (fun j _ => holds_signed_of_unordered hp (lane s1 j) (lane s2 j)) m
  · rw [vpcmp_testBit_activeOnes, vpcmp_testBit_activeOnes, hactive, Bool.true_and, Bool.true_and, ← lane_msb,
      ← lane_msb]
    exact holds_signed_iff_of_ordered hp (lane s1 j) (lane s2 j)

/-- Settles O30: flipping the sign bits adds 8000h to both integers of a lane. -/
theorem lawBias : Obligations.LawBias := by
  refine fun vl p s1 s2 m => vpcmp_eq_of_laneTrue (fun j hj => ?_) m
  rw [laneTrue, laneTrue, lane_xor, lane_xor, lane_signBits hj, wordValue_unsigned_xor_signBit,
    wordValue_unsigned_xor_signBit, Predicate.holds_add_right]

/-- Settles O31: what a lane compares does not depend on the length. -/
theorem lawLengthNesting : Obligations.LawLengthNesting :=
  fun sg p s1 s2 m => ⟨vpcmp_mod_two_pow_lanes (vl := .v128) (by decide) sg p s1 s2 m,
    vpcmp_mod_two_pow_lanes (vl := .v256) (by decide) sg p s1 s2 m⟩

/-- Settles O21: the comparisons of integers, NLT and NLE as the order reversed. -/
theorem predicateMeanings : Obligations.PredicateMeanings :=
  fun a b => ⟨decide_eq_true_iff, decide_eq_true_iff, decide_eq_true_iff, rfl, by simp [Predicate.holds],
    by simp [Predicate.holds], by simp [Predicate.holds], rfl⟩

/-- Settles O22: from 8000h on the sign bit is 1. -/
theorem wordValues : Obligations.WordValues := by
  refine fun w => ⟨?_, rfl⟩
  rw [wordValue_signed]
  split_ifs <;> omega

/-- Settles O23: the comparison run on each row with each predicate. -/
theorem cornerOutcomes : Obligations.CornerOutcomes := by
  unfold Obligations.CornerOutcomes
  decide +kernel

/-- Settles O52: nothing refuses the fetch, and the fetched instruction is executed. -/
theorem stepRunsTheDecodedInstr : Obligations.StepRunsTheDecodedInstr :=
  fun s _ _ hmode hregion hpoint hend hdec =>
    step_of_fetch_instr (s.fetchRefusal_eq_none_iff.2 ⟨hmode, hregion, hpoint, hend⟩) hdec
end

section
/-! SUPPORT. The result of a form, lane by lane, and the statements of 41_vpcmpw.md: each form of VPCMPW completes. -/

namespace Sys2Proof.Machine

/-- Lane j of SRC1 below KL does not depend on the register's bits above VL (R22). -/
theorem State.lane_readVec_src1 (s : State) (vl : VecLen) (o : Operands) {j : Nat} (hj : j < vl.lanes) :
    lane (s.readVec vl o.src1) j = s.leftLane o j := s.lane_readVec vl o.src1 hj

/-- The comparison of SRC1 with a value whose lanes are those of SRC2, bit by bit (R135 to R137). -/
theorem State.vpcmp_testBit_sources {s : State} {vl : VecLen} {o : Operands} {v : Vec} (sg : Signedness)
    (hv : ∀ j < vl.lanes, lane v j = s.rightLane vl o j) (j : Nat) :
    (vpcmp sg vl (predicateBits o.imm8) (s.readVec vl o.src1) v (s.maskOperand o.mask)).testBit j =
      (decide (j < vl.lanes) && s.laneOn o j && Predicate.holds (predicateOf (predicateBits o.imm8))
        (wordValue sg (s.leftLane o j)) (wordValue sg (s.rightLane vl o j))) := by
  rw [vpcmp_testBit, State.laneActive_maskOperand, ← State.laneOn, Bool.and_assoc]
  by_cases hj : j < vl.lanes
  · rw [laneTrue, s.lane_readVec_src1 vl o hj, hv j hj]
  · simp [hj]

/-- A ready form with a readable source completes, with every bit of DEST and RIP known (R135 to R137, R146). -/
theorem exec_completes (i : Instr) {s : State} (hr : s.Ready i.vecLen) (hl : i.operands.fixed.legal = true)
    (hs : s.SourceReadable i.vecLen i.operands) :
    ∃ t, exec i s = .next t ∧ ResultIs s t i.vecLen i.vecLen.lanes (wordValue i.signedness) i.operands ∧
      t.rip = s.rip + BitVec.ofNat 64 i.operands.length := by
  obtain ⟨v, u, hread, -, hv⟩ := State.readSource2_of_readable hs
  have hexec := exec_eq_next_iff.2 ⟨hr, hl, v, u, hread, rfl⟩
  refine ⟨_, hexec, fun j => ?_, exec_rip hexec⟩
  rw [State.complete_kReg_vpcmp]
  exact State.vpcmp_testBit_sources i.signedness hv j

end Sys2Proof.Machine

open Sys2Proof Sys2Proof.Machine

/-- Settles O8: the form's parameters are 8 lanes and signed words. -/
theorem vpcmpw128Completes : Obligations.Vpcmpw128Completes :=
  fun o _ hr hl hs => exec_completes (.vpcmpw128 o) hr hl hs

/-- Settles O9: the form's parameters are 16 lanes and signed words. -/
theorem vpcmpw256Completes : Obligations.Vpcmpw256Completes :=
  fun o _ hr hl hs => exec_completes (.vpcmpw256 o) hr hl hs

/-- Settles O10: the form's parameters are 32 lanes and signed words. -/
theorem vpcmpw512Completes : Obligations.Vpcmpw512Completes :=
  fun o _ hr hl hs => exec_completes (.vpcmpw512 o) hr hl hs

end

section
/-! The statements of 42_vpcmpuw.md: each form of VPCMPUW completes, by the lemma that serves VPCMPW too. -/

open Sys2Proof Sys2Proof.Machine

/-- Settles O11: the form's parameters are 8 lanes and unsigned words. -/
theorem vpcmpuw128Completes : Obligations.Vpcmpuw128Completes :=
  fun o _ hr hl hs => exec_completes (.vpcmpuw128 o) hr hl hs

/-- Settles O12: the form's parameters are 16 lanes and unsigned words. -/
theorem vpcmpuw256Completes : Obligations.Vpcmpuw256Completes :=
  fun o _ hr hl hs => exec_completes (.vpcmpuw256 o) hr hl hs

/-- Settles O13: the form's parameters are 32 lanes and unsigned words. -/
theorem vpcmpuw512Completes : Obligations.Vpcmpuw512Completes :=
  fun o _ hr hl hs => exec_completes (.vpcmpuw512 o) hr hl hs

end

section
/-! SUPPORT. What a pseudo-op expands to, what an intrinsic's value is, and the statements of
43_pseudo_ops_and_intrinsics.md. -/

namespace Sys2Proof.Machine

/-! ### Pseudo-ops (R172) -/

theorem pseudoImm_eq_none_iff (p : Predicate) : pseudoImm p = none ↔ p = .never ∨ p = .always := by
  cases p <;> simp [pseudoImm]

theorem pseudoName_eq_none_iff (sg : Signedness) (p : Predicate) :
    pseudoName sg p = none ↔ p = .never ∨ p = .always := by
  cases p <;> simp [pseudoName]

/-- The immediate of a pseudo-op selects the predicate in its name (R131, R172). -/
theorem predicateOf_pseudoImm {p : Predicate} {imm : BitVec 8} (h : pseudoImm p = some imm) :
    predicateOf (predicateBits imm) = p := by
  cases p <;> cases h <;> rfl

theorem pseudoExpand_eq_none_iff (sg : Signedness) (vl : VecLen) (p : Predicate) (o : Operands) :
    pseudoExpand sg vl p o = none ↔ p = .never ∨ p = .always := by
  rw [pseudoExpand, Option.map_eq_none_iff, pseudoImm_eq_none_iff]

theorem pseudoExpand_eq_some_iff {sg : Signedness} {vl : VecLen} {p : Predicate} {o : Operands} {i : Instr} :
    pseudoExpand sg vl p o = some i ↔ ∃ imm, pseudoImm p = some imm ∧ .ofForm sg vl { o with imm8 := imm } = i := by
  rw [pseudoExpand, Option.map_eq_some_iff]

/-! ### Intrinsics (R174) -/

/-- The result has no bit that a value of KL bits could not hold (R137, R174). -/
theorem intrinsicMask_toNat (sg : Signedness) (vl : VecLen) (m : Option (BitVec vl.lanes)) (a b : Vec)
    (cmp : BitVec 8) :
    (intrinsicMask sg vl m a b cmp).toNat = vpcmp sg vl (predicateBits cmp) a b (m.map fun v => v.toNat) := by
  rw [intrinsicMask, BitVec.toNat_ofNat, Nat.mod_eq_of_lt (vpcmp_lt ..)]

end Sys2Proof.Machine

open Sys2Proof Sys2Proof.Machine

/-- Settles O60: the result fits KL bits, and `cmp AND 7` names the same predicate as `cmp`. -/
theorem intrinsicsReturnDest : Obligations.IntrinsicsReturnDest := by
  intro sg vl m a b cmp
  rw [intrinsicMask_toNat, predicateBits_and_seven]

/-- Settles O59: the table row by row, and for any expansion the immediate that its predicate names. -/
theorem pseudoOpsExpand : Obligations.PseudoOpsExpand := by
  intro sg vl p o
  refine ⟨pseudoExpand_eq_none_iff sg vl p o, pseudoName_eq_none_iff sg p, fun row hrow => ?_, fun i hi => ?_⟩
  · fin_cases hrow <;> exact ⟨rfl, rfl, rfl⟩
  · obtain ⟨imm, himm, rfl⟩ := pseudoExpand_eq_some_iff.1 hi
    rw [Instr.signedness_ofForm, Instr.vecLen_ofForm, Instr.operands_ofForm]
    exact ⟨rfl, rfl, predicateOf_pseudoImm himm, rfl⟩

end

section
/-! SUPPORT. When a #UD condition holds, which exceptions a form and a step raise, and the statements of
60_exceptions.md. -/

namespace Sys2Proof

/-! ### The #UD conditions (R192 to R194) -/

theorem FixedBits.legal_eq_false_iff (f : FixedBits) :
    f.legal = false ↔ f.z = true ∨ f.b = true ∨ f.r = true ∨ f.rHi = true := by
  simp only [FixedBits.legal, Bool.and_eq_false_iff, Bool.not_eq_false']
  tauto

namespace Machine

theorem State.evexEnabled_eq_false_iff {s : State} (hm : s.mode64 = true) : s.evexEnabled = false ↔
    s.cr4.getLsbD 18 = false ∨ ∃ n ∈ [1, 2, 5, 6, 7], s.xcr0.getLsbD n = false := by
  simp only [State.evexEnabled, State.cr4Osxsave, State.xcr0Enabled, hm, Bool.and_true, Bool.and_eq_false_iff,
    List.exists_mem_cons_iff, List.not_mem_nil, false_and, exists_false, or_false, or_assoc]

theorem State.features_eq_false_iff (s : State) (vl : VecLen) : s.features vl = false ↔
    s.cfg.cpuid7Ebx.getLsbD 30 = false ∨ (vl ≠ .v512 ∧ s.cfg.cpuid7Ebx.getLsbD 31 = false) := by
  cases vl <;>
    simp [State.features, Config.avx512bw, Config.avx512vl, Bool.and_eq_false_iff, -Bool.and_eq_false_imp]

theorem State.invalidOpcode_iff (s : State) (vl : VecLen) (o : Operands) : s.invalidOpcode vl o = true ↔
    s.evexEnabled = false ∨ s.features vl = false ∨ o.fixed.legal = false := by
  simp [State.invalidOpcode, fixedBitsWrong_eq, or_assoc]

/-! ### The exceptions of a form (R191, R195 to R199) -/

theorem exec_of_invalidOpcode {i : Instr} {s : State} (hm : s.mode64 = true)
    (hv : s.invalidOpcode i.vecLen i.operands = true) : exec i s = raise .ud s := by
  simp [exec_eq_compareWords, compareWords, hm, hv]

theorem exec_of_cr0Ts {i : Instr} {s : State} (hm : s.mode64 = true)
    (hv : s.invalidOpcode i.vecLen i.operands = false) (ht : s.cr0Ts = true) : exec i s = raise .nm s := by
  simp [exec_eq_compareWords, compareWords, hm, hv, ht]

/-- The check of a memory operand raises no #UD (R196 to R199). -/
theorem State.memoryCheck_raised {s : State} {vl : VecLen} {o : Operands} {m : MemOperand} {r : ExceptionRecord}
    (h : s.memoryCheck vl o m = some (.raised r)) : ∃ e : Exception, e.fault s = .raised r ∧ e ≠ .ud := by
  obtain ⟨-, hf⟩ | ⟨-, ⟨-, hf⟩ | ⟨-, hp⟩⟩ := State.memoryCheck_some h
  · exact ⟨_, hf.symm, by split_ifs <;> decide⟩
  · cases hf
  · obtain ⟨hf, -⟩ | ⟨hf, -⟩ | ⟨a, -, code, -, hf⟩ := State.pagingCheck_some hp
    · cases hf
    · cases hf
    · exact ⟨.pf code a, hf.symm, nofun⟩

/-- A record that a form leaves is that of an exception, and of #UD only where a #UD condition holds. -/
theorem exec_raised {i : Instr} {s : State} {r : ExceptionRecord} (h : exec i s = .fault (.raised r)) :
    ∃ e : Exception, e.fault s = .raised r ∧ (e = .ud → s.invalidOpcode i.vecLen i.operands = true) := by
  rw [exec_eq_compareWords] at h
  obtain ⟨-, hx⟩ | ⟨-, hv, hx⟩ | ⟨-, -, -, hx⟩ | ⟨-, -, ⟨f, hs, hx⟩ | ⟨u, hx⟩⟩ :=
    compareWords_stops i.signedness i.vecLen i.operands s
  · cases hx.symm.trans h
  · exact ⟨.ud, Host.Outcome.fault.inj (hx.symm.trans h), fun _ => hv⟩
  · exact ⟨.nm, Host.Outcome.fault.inj (hx.symm.trans h), nofun⟩
  · obtain rfl : f = .raised r := Host.Outcome.fault.inj (hx.symm.trans h)
    obtain ⟨m, -, hcheck⟩ := State.readSource2_error hs
    obtain ⟨e, he, hud⟩ := State.memoryCheck_raised hcheck
    exact ⟨e, he, fun heq => absurd heq hud⟩
  · cases hx.symm.trans h

/-- #UD is the only exception with vector 6 (R191). -/
theorem Exception.vector_eq_six_iff (e : Exception) : e.vector = 6 ↔ e = .ud := by
  cases e <;> simp [Exception.vector]

/-- In 64-bit mode a form raises #UD exactly where a #UD condition holds: #UD is checked first, and no later check
raises it (R192 to R194, R203). -/
theorem exec_eq_raise_ud_iff {i : Instr} {s : State} (hm : s.mode64 = true) :
    exec i s = raise .ud s ↔ s.invalidOpcode i.vecLen i.operands = true := by
  refine ⟨fun h => ?_, exec_of_invalidOpcode hm⟩
  obtain ⟨e, he, hinvalid⟩ := exec_raised h
  exact hinvalid (e.vector_eq_six_iff.1 (congrArg ExceptionRecord.vector (Fault.raised.inj he)))

/-! ### The exceptions of a step (R191, R204) -/

/-- A record that a step leaves is that of an exception at its RIP. -/
theorem step_raised {s : State} {r : ExceptionRecord} (h : step s = .fault (.raised r)) :
    ∃ e : Exception, e.fault s = .raised r := by
  cases hr : s.fetchRefusal with
  | some q => cases (step_of_fetchRefusal hr).symm.trans h
  | none =>
    cases hf : s.fetch with
    | instr i rest =>
      obtain ⟨e, he, -⟩ := exec_raised ((step_of_fetch_instr hr hf).symm.trans h)
      exact ⟨e, he⟩
    | invalid why => exact ⟨.ud, Host.Outcome.fault.inj ((step_of_fetch_invalid hr hf).symm.trans h)⟩
    | tooLong => exact ⟨.gp, Host.Outcome.fault.inj ((step_of_fetch_tooLong hr hf).symm.trans h)⟩
    | refused why => cases (step_of_fetch_refused hr hf).symm.trans h

end Machine

end Sys2Proof

open Sys2Proof Sys2Proof.Machine

/-- Settles O32: the #UD conditions, spelled out in register and encoding bits. -/
theorem udExactlyWhen : Obligations.UdExactlyWhen := by
  intro i s hm
  have hud := (exec_eq_raise_ud_iff (i := i) hm).trans (s.invalidOpcode_iff i.vecLen i.operands)
  rw [State.evexEnabled_eq_false_iff hm, State.features_eq_false_iff, FixedBits.legal_eq_false_iff, or_assoc,
    or_assoc] at hud
  exact hud

/-- Settles O33: CR0.TS is checked before the second source is looked at. -/
theorem nmAfterUd : Obligations.NmAfterUd := by
  intro i s he hf hl ht
  have hvalid : s.invalidOpcode i.vecLen i.operands = false := by
    rw [← Bool.not_eq_true, State.invalidOpcode_iff, he, hf, hl]
    decide
  exact exec_of_cr0Ts (State.mode64_of_evexEnabled he) hvalid ht

/-- Settles O42: the record is that of one of the five exceptions of R191. -/
theorem onlyFiveExceptions : Obligations.OnlyFiveExceptions := by
  intro s r h
  obtain ⟨e, he⟩ := step_raised h
  obtain rfl := Fault.raised.inj he
  refine ⟨rfl, ?_⟩
  cases e with
  | ud => exact .inl ⟨rfl, rfl, rfl⟩
  | nm => exact .inr (.inl ⟨rfl, rfl, rfl⟩)
  | ss => exact .inr (.inr (.inl ⟨rfl, rfl, rfl⟩))
  | gp => exact .inr (.inr (.inr (.inl ⟨rfl, rfl, rfl⟩)))
  | pf code a => exact .inr (.inr (.inr (.inr ⟨rfl, rfl, rfl⟩)))

end

section
/-! SUPPORT. The first program point, the launch premises of the launch state, and the statements of
70_reset_and_hazards.md. -/

namespace Sys2Proof.Machine

/-- The start of the code has offset 0. -/
theorem State.ripOffset_of_rip_eq_codeBase {s : State} (h : s.rip = s.codeBase) : s.ripOffset = 0 := by
  simp [State.ripOffset, h]

/-- The start of any program is a program point: the sum of no lengths (R234). -/
theorem State.atProgramPoint_of_rip_eq_codeBase {s : State} (h : s.rip = s.codeBase) : s.atProgramPoint = true :=
  (s.atProgramPoint_iff_decodesTo).2 ⟨[], s.code, rfl, State.ripOffset_of_rip_eq_codeBase h⟩

/-- Where no program is loaded, its start is its end (R234). -/
theorem State.atEnd_of_code_eq_nil {s : State} (hrip : s.rip = s.codeBase) (hcode : s.code = []) : s.atEnd = true := by
  rw [State.atEnd_iff, State.ripOffset_of_rip_eq_codeBase hrip, hcode, List.length_nil]

/-! ### The launch state (R231, R232) -/

theorem State.reset_rip_eq_codeBase : State.reset.rip = State.reset.codeBase := rfl

/-- Both feature flags are reported, so every length has the flags of its row (log entry 3). -/
theorem State.reset_features (vl : VecLen) : State.reset.features vl = true := by
  cases vl <;> decide

theorem State.reset_evexEnabled : State.reset.evexEnabled = true := by decide

theorem State.reset_cr0Ts : State.reset.cr0Ts = false := by decide

theorem State.reset_ready (vl : VecLen) : State.reset.Ready vl :=
  ⟨State.reset_evexEnabled, State.reset_features vl, State.reset_cr0Ts⟩

theorem State.reset_kReg (n : BitVec 3) : State.reset.kReg n = 0 := Vector.getElem_replicate _

theorem State.reset_codeRegionOk : State.reset.codeRegionOk = true :=
  State.reset.codeRegionOk_iff.2 ⟨by decide, .inl (by decide)⟩

theorem State.reset_launchOk : State.reset.LaunchOk where
  mode64 := State.mode64_of_evexEnabled State.reset_evexEnabled
  evexEnabled := State.reset_evexEnabled
  tsClear := State.reset_cr0Ts
  avx512bw := by decide
  codeRegion := State.reset_codeRegionOk
  atProgramPoint := State.atProgramPoint_of_rip_eq_codeBase State.reset_rip_eq_codeBase
  memory := State.reset_mem_wf
  seen := rfl
  masks n := by rw [State.reset_kReg]; exact Nat.two_pow_pos _

theorem State.reset_final : State.reset.Final :=
  ⟨State.reset_launchOk, State.atEnd_of_code_eq_nil State.reset_rip_eq_codeBase rfl⟩

end Sys2Proof.Machine

open Sys2Proof Sys2Proof.Machine

/-- Settles O57: the enabling bits are evaluated at the launch state, and RIP is at the start of an empty program,
which is its only program point and its end. -/
theorem resetIsALaunchState : Obligations.ResetIsALaunchState :=
  ⟨State.reset_launchOk, State.reset_ready, State.reset_final, State.reset_rip_eq_codeBase⟩

end
